-- ==== Sys2Proof/Word.lean ====
section
/-! DEFINITION. The word types of the gf256 core: 32-bit registers (spec 00_scope.md R7, `REG_BITS`) and 8-bit table
entries (10_state.md R25). Field arithmetic is on naturals, as 00_scope.md R9 writes it, and needs no type here. -/

namespace Sys2Proof

/-- A host-visible register value, `REG_BITS` = 32 bits, unsigned (00_scope.md R7, R9). -/
abbrev Word := BitVec 32

/-- One entry of a table memory (10_state.md R25). -/
abbrev Byte := BitVec 8

end Sys2Proof
end

