-- ==== Sys2Proof/Syntax.lean ====
section
/-! DEFINITION. The instructions of the gf256 core: the fourteen commands of 30_encoding.md R63, one constructor for each
row of spec/opcode_table.json. A command has no operand field (R61): operands are OPA and OPB, the result is RES. -/

namespace Sys2Proof

/-- The commands, in the order of the opcode map (30_encoding.md R63). -/
inductive Instr where
  /-- ADD: field addition (40_element_ops.md R80). -/
  | add
  /-- SUB: field subtraction (40_element_ops.md R81). -/
  | sub
  /-- CLMUL: carry-less multiply without reduction (41_direct_engine.md R101). -/
  | clmul
  /-- PDIV: polynomial quotient (41_direct_engine.md R104). -/
  | pdiv
  /-- RDEXP: read one EXP entry (42_table_engine.md R139). -/
  | rdexp
  /-- RDLOG: read the logarithm of an element (42_table_engine.md R140). -/
  | rdlog
  /-- MUL.D: field multiply, direct engine (41_direct_engine.md R107). -/
  | mulD
  /-- INV.D: inverse, direct engine (41_direct_engine.md R113). -/
  | invD
  /-- DIV.D: division, direct engine (40_element_ops.md R83). -/
  | divD
  /-- POW.D: exponentiation, direct engine (40_element_ops.md R86). -/
  | powD
  /-- MUL.T: field multiply, table engine (42_table_engine.md R136). -/
  | mulT
  /-- INV.T: inverse, table engine (42_table_engine.md R138). -/
  | invT
  /-- DIV.T: division, table engine (40_element_ops.md R84). -/
  | divT
  /-- POW.T: exponentiation, table engine (40_element_ops.md R87). -/
  | powT
deriving DecidableEq, Repr

end Sys2Proof
end

