-- ==== Sys2Proof/WellFormed.lean ====
section
/-! DEFINITION. Well-formedness. A command has no operand field (30_encoding.md R61), so every `Instr` is well formed; what
can be ill formed is a command word: 30_encoding.md R60 fixes its reserved field, and the middle bit of the engine group. -/

namespace Sys2Proof

/-- Every command is well formed: there is no field whose value could be out of range (30_encoding.md R61). -/
def Instr.wf : Instr → Bool
  | .add | .sub | .clmul | .pdiv | .rdexp | .rdlog => true
  | .mulD | .invD | .divD | .powD | .mulT | .invT | .divT | .powT => true

/-- RSV, bits 31:8 of a command word, is zero (30_encoding.md R60). -/
def reservedClear (w : Word) : Bool := w.extractLsb 31 8 == 0#24

/-- Inside the engine group (OP[7:4] = 0b0001) bit 2 of OP is zero (30_encoding.md R60). -/
def groupBitClear (w : Word) : Bool := !(w.extractLsb 7 4 == 0b0001#4) || !w.getLsbD 2

/-- A word of the one format CMD (30_encoding.md R60). -/
def wordWf (w : Word) : Bool := reservedClear w && groupBitClear w

end Sys2Proof
end

