-- ==== Sys2Proof/Decode.lean ====
section
/-! DEFINITION. Decoding a command word (30_encoding.md R65, total on every 32-bit word, rejecting by name) and encoding a
command (R60, R63). The decoder reads the opcode map; the encoder builds the engine group's words from the fields of R60. -/

namespace Sys2Proof

/-- Why a word is no command (30_encoding.md R64). Both reasons raise ILLEGAL. -/
inductive DecodeReject where
  /-- A bit of RSV (31:8) is set. -/
  | reservedBits
  /-- OP is none of the codes of the opcode map. -/
  | reservedOp
deriving DecidableEq, Repr

/-- The OP field of a command word, bits 7:0 (30_encoding.md R60). -/
def opField (w : Word) : Nat := (w.extractLsb 7 0).toNat

/-- The decoder of 30_encoding.md R65. -/
def decode (w : Word) : Except DecodeReject Instr :=
  if reservedClear w then
    match opField w with
    | 0x01 => .ok .add
    | 0x02 => .ok .sub
    | 0x03 => .ok .clmul
    | 0x04 => .ok .pdiv
    | 0x05 => .ok .rdexp
    | 0x06 => .ok .rdlog
    | 0x10 => .ok .mulD
    | 0x11 => .ok .invD
    | 0x12 => .ok .divD
    | 0x13 => .ok .powD
    | 0x18 => .ok .mulT
    | 0x19 => .ok .invT
    | 0x1A => .ok .divT
    | 0x1B => .ok .powT
    | _ => .error .reservedOp
  else .error .reservedBits

/-- The two strategies a command can name, or neither (30_encoding.md R62). -/
inductive Engine where
  | either | direct | table
deriving DecidableEq, Repr

/-- The engine of a command (the `engine` column of 30_encoding.md R63). -/
def engineOf : Instr → Engine
  | .add | .sub => .either
  | .clmul | .pdiv | .mulD | .invD | .divD | .powD => .direct
  | .rdexp | .rdlog | .mulT | .invT | .divT | .powT => .table

/-- A word of the engine group from its fields: RSV = 0, GRP = 0b0001, ENG, 0, FN (30_encoding.md R60). -/
def groupWord (eng : BitVec 1) (fn : BitVec 2) : Word := 0#24 ++ 0b0001#4 ++ eng ++ 0#1 ++ fn

/-- The word of a command (30_encoding.md R60, R63). -/
def encode : Instr → Word
  | .add => 0x00000001
  | .sub => 0x00000002
  | .clmul => 0x00000003
  | .pdiv => 0x00000004
  | .rdexp => 0x00000005
  | .rdlog => 0x00000006
  | .mulD => groupWord 0 0b00
  | .invD => groupWord 0 0b01
  | .divD => groupWord 0 0b10
  | .powD => groupWord 0 0b11
  | .mulT => groupWord 1 0b00
  | .invT => groupWord 1 0b01
  | .divT => groupWord 1 0b10
  | .powT => groupWord 1 0b11

/-- The instruction the decoder reads from a row of spec/opcode_table.json: `w` as the table numbers its bits, every bit
from `nbits` up being zero. -/
def decodeTableWord (nbits w : Nat) : Option Instr := (decode (BitVec.ofNat 32 (w % 2 ^ nbits))).toOption

end Sys2Proof
end

