-- ==== Sys2Proof/Config.lean ====
section
/-! DEFINITION. The constants the spec fixes (00_scope.md R6), the parameters it leaves to the platform (00_scope.md R7)
and the values it leaves unspecified (10_state.md R31: the tables before the generator step). -/

namespace Sys2Proof

/-- The platform's parameters (00_scope.md R7). They are held in the machine's state as data that no step changes, so that
a statement about every state is a statement about every platform (92_eei_decisions.md D6: "quantified over"). -/
structure Config where
  /-- `GF_BASE`: the byte address of the register window, a multiple of 0x20. -/
  gfBase : Nat
  /-- `HAS_ACCEL`: whether an accelerator replaces a primitive. No rule reads it (92_eei_decisions.md D24). -/
  hasAccel : Bool
deriving DecidableEq, Repr

namespace Config

/-- `POLY`: x^8 + x^4 + x^3 + x + 1, nine bits (00_scope.md R6). -/
abbrev poly : Nat := 0x11B

/-- `GEN`: the generator of the table engine, an integer (00_scope.md R6). -/
abbrev gen : Nat := 3

/-- `ORDER`: the modulus of exponent arithmetic (00_scope.md R6). -/
abbrev order : Nat := 255

/-- `TABLE_LEN`: entries of each table (00_scope.md R6). -/
abbrev tableLen : Nat := 255

/-- `MUL_ITERS`: iterations of the direct multiplier, independent of data (00_scope.md R6). -/
abbrev mulIters : Nat := 8

/-- `WINDOW`: bytes of the register window (00_scope.md R7). -/
abbrev window : Nat := 0x20

/-- The one admitted access width, in bytes (20_memory.md R46). -/
abbrev accessBytes : Nat := 4

/-- `GF_BASE` is a multiple of 0x20 (00_scope.md R7). -/
def wf (c : Config) : Bool := c.gfBase % window == 0

/-- FREE VALUE: what entry `i` of EXP holds after the `epoch`-th reset and before the generator step ("unspecified (any
value)", 10_state.md R31; 93_implementation_defined.md row 7, `any value`). Assumption log 3. -/
opaque unwrittenExp (epoch i : Nat) : Byte

/-- FREE VALUE: the same for LOG (10_state.md R31). Assumption log 3. -/
opaque unwrittenLog (epoch i : Nat) : Byte

end Config

end Sys2Proof
end

