-- ==== Sys2Proof/Machine/State.lean ====
section
/-! DEFINITION. The state of the machine as plain data: the seven pieces of 10_state.md R32, the platform's parameters,
and the model's own fields (what arrives at the block next, what the last read returned, the index of the free values). -/

namespace Sys2Proof.Machine

/-- A table memory: (index, byte) pairs, indices strictly rising; an index that is not listed has not been written since
reset (assumption log 3). -/
abbrev Memory := List Host.Cell

/-- The errors a command can end with (60_exceptions.md R151). -/
inductive Err where
  /-- The CMD word is not in the opcode map. -/
  | illegal
  /-- STATUS.READY = 0. -/
  | notReady
  /-- An operand is outside its operand class. -/
  | range
  /-- A zero divisor, or a zero argument of an inverse. -/
  | divZero
  /-- The inverter's loop ended with `old_r` other than 1. -/
  | internal
deriving DecidableEq, Repr

/-- One host access at byte address `addr`, `width` bytes wide (00_scope.md R10, `MemRead` and `MemWrite`). -/
inductive Access where
  | read (addr width : Nat)
  | write (addr width : Nat) (data : Word)
deriving DecidableEq, Repr

/-- What can happen next at the block (00_scope.md R15): a step of HOST, the step of GEN, or a reset from outside. Their
order is the environment's choice (20_memory.md R52, 70_reset_and_hazards.md R172), so it is held as data. -/
inductive PortEvent where
  /-- HOST performs one access. -/
  | access (a : Access)
  /-- GEN takes its step now (70_reset_and_hazards.md R172). -/
  | gen
  /-- A reset, between two steps (70_reset_and_hazards.md R170). -/
  | reset
  /-- A reset that arrives while `a` is in progress (70_reset_and_hazards.md R178). -/
  | accessCutByReset (a : Access)
deriving DecidableEq, Repr

structure State where
  /-- OPA (10_state.md R20). -/
  opa : Word
  /-- OPB (10_state.md R20). -/
  opb : Word
  /-- RES (10_state.md R22). -/
  res : Word
  /-- STATUS.READY (10_state.md R23). -/
  ready : Bool
  /-- STATUS.ECODE, bits 7:4 of STATUS (10_state.md R24). -/
  ecode : BitVec 4
  /-- The table memory EXP, indices 0 to 254 (10_state.md R25). -/
  exp : Memory
  /-- The table memory LOG, indices 0 to 254 (10_state.md R25). -/
  log : Memory
  /-- The platform's parameters (00_scope.md R7); no step changes them. -/
  config : Config
  /-- MODEL'S OWN: what arrives at the block, the next event first (20_memory.md R52). -/
  port : List PortEvent
  /-- MODEL'S OWN: the value the last step returned to the host, if that step was a read (20_memory.md R43). -/
  rdata : Option Word
  /-- MODEL'S OWN: resets taken so far, the index of the free values of 10_state.md R31 (assumption log 3). -/
  tableEpoch : Nat
deriving DecidableEq, Repr

/-- Why the machine stops with a fault. -/
inductive Fault where
  /-- Raised by `step` on a schedule that names GEN when its one step has been taken: GEN has no step then
  (70_reset_and_hazards.md R172). Safe: the machine stops where the block has no such behaviour. -/
  | genNotPending
deriving DecidableEq, Repr

/-- Why an access has no step. -/
inductive Refusal where
  /-- Raised by `exec` for a command without a meaning. No arm raises it. Safe. -/
  | notModelled (mnemonic : String)
  /-- Raised by an access of any width other than 32 bits (20_memory.md R46). Safe: the host is stuck. -/
  | accessWidth
  /-- Raised by an access with `addr mod 4` other than 0 (20_memory.md R47). Safe: the host is stuck. -/
  | misaligned
  /-- Raised by an access outside the window, which is not the block's (20_memory.md R41). Safe. -/
  | outsideWindow
  /-- Raised by an access that overlaps a reset (70_reset_and_hazards.md R178). Safe. -/
  | overlapsReset
  /-- Raised by a host program statement that writes or tests a host variable no `RD` has set (30_encoding.md R68). Safe. -/
  | hostVariableUnset
deriving DecidableEq, Repr

/-- The machine right after reset (10_state.md R31): registers and STATUS zero, no table entry written. `GF_BASE` = 0 and
`HAS_ACCEL` = false are the model's choice for this one constant (assumption log 2). -/
def State.reset : State where
  opa := 0
  opb := 0
  res := 0
  ready := false
  ecode := 0
  exp := []
  log := []
  config := { gfBase := 0, hasAccel := false }
  port := []
  rdata := none
  tableEpoch := 0

end Sys2Proof.Machine
end

