-- ==== Sys2Proof/Machine/Flags.lean ====
section
/-! DEFINITION. The status register: the error codes of 60_exceptions.md R151 and the STATUS word of 10_state.md R24. The
block has no condition codes and no other flag (10_state.md R28). -/

namespace Sys2Proof.Machine

/-- The ECODE of an error (60_exceptions.md R151). -/
def Err.code : Err → BitVec 4
  | .illegal => 1
  | .notReady => 2
  | .range => 3
  | .divZero => 4
  | .internal => 5

/-- The STATUS word `zext_32({ECODE[3:0], 0b000, READY})` (10_state.md R24, 20_memory.md R43). -/
def statusWord (ready : Bool) (ecode : BitVec 4) : Word :=
  (ecode ++ 0b000#3 ++ BitVec.ofBool ready : BitVec 8).setWidth 32

/-- STATUS as the host reads it. -/
def State.status (s : State) : Word := statusWord s.ready s.ecode

end Sys2Proof.Machine
end

