-- ==== Sys2Proof/Machine/Operands.lean ====
section
/-! DEFINITION. The operand classes of 30_encoding.md R61 and the two shapes in which commands use elements. A class gives
the operand as a natural (00_scope.md R9) or the error RANGE. `ignored` needs no function: the register is not read. -/

namespace Sys2Proof.Machine

/-- `elem(R)`: a field element, admitted when `R < 256`, that is `R[31:8] = 0` (60_exceptions.md R152). -/
def elem (r : Word) : Except Err Nat := if r.toNat < 2 ^ 8 then .ok r.toNat else .error .range

/-- `poly16(R)`: a polynomial of degree at most 15, admitted when `R[31:16] = 0`. -/
def poly16 (r : Word) : Except Err Nat := if r.toNat < 2 ^ 16 then .ok r.toNat else .error .range

/-- `poly32(R)`: the whole value as a polynomial of degree at most 31. -/
def poly32 (r : Word) : Except Err Nat := .ok r.toNat

/-- `index(R, lo, hi)`: an integer admitted when `lo <= R <= hi`. -/
def index (r : Word) (lo hi : Nat) : Except Err Nat :=
  if lo ≤ r.toNat ∧ r.toNat ≤ hi then .ok r.toNat else .error .range

/-- `zext_32` of a result (00_scope.md R9). -/
def toResult (v : Nat) : Word := BitVec.ofNat 32 v

/-- Reads OPA and OPB by their classes, both checked before the function is applied (60_exceptions.md R154). -/
def withTwo (a b : Except Err Nat) (f : Nat → Nat → Except Err Nat) : Except Err Word :=
  match a, b with
  | .ok x, .ok y => (f x y).map toResult
  | .error e, _ => .error e
  | .ok _, .error e => .error e

/-- Reads one operand by its class; the other register is ignored. -/
def withOne (a : Except Err Nat) (f : Nat → Except Err Nat) : Except Err Word :=
  match a with
  | .ok x => (f x).map toResult
  | .error e => .error e

end Sys2Proof.Machine
end

