-- ==== Sys2Proof/Machine/Ops.lean ====
section
/-! DEFINITION. The named operations over the table memories and the registers: reading and writing a table memory, ending a
command (`return v` and `raise E()` of 00_scope.md R10), the readiness check every command shares, and the reset event. The
block takes no exception and returns from none (60_exceptions.md R150, R158): `State.raise` is all an error does. -/

namespace Sys2Proof.Machine

/-- The byte listed at index `i`, if one is. -/
def Memory.read? : Memory → Nat → Option Byte
  | [], _ => none
  | c :: m, i => bif Nat.beq i c.1 then some c.2 else Memory.read? m i

/-- Write byte `v` at index `i`, keeping indices strictly rising. -/
def Memory.write : Memory → Nat → Byte → Memory
  | [], i, v => [(i, v)]
  | c :: m, i, v =>
    bif Nat.blt i c.1 then (i, v) :: c :: m
    else bif Nat.beq i c.1 then (i, v) :: m
    else c :: Memory.write m i v

/-- The cells of consecutive entries `vs` from index `i` on. -/
def Memory.ofValues : Nat → List Nat → Memory
  | _, [] => []
  | i, v :: vs => (i, BitVec.ofNat 8 v) :: Memory.ofValues (i + 1) vs

/-- Every index of `m` is at least `lo`, and indices strictly rise. -/
def Memory.wfFrom : Nat → Memory → Bool
  | _, [] => true
  | lo, c :: m => Nat.ble lo c.1 && Memory.wfFrom (c.1 + 1) m

/-- The canonical form of a table memory: indices strictly rising and below `TABLE_LEN` (10_state.md R25). What an unlisted
index reads as is a free value, so no entry can equal it and none is left out for being equal to it. -/
def Memory.wf (m : Memory) : Bool := Memory.wfFrom 0 m && m.all fun c => Nat.blt c.1 Config.tableLen

/-- `EXP[i]`: the entry, or a free value while nothing has been written there (10_state.md R31). -/
def State.expEntry (s : State) (i : Nat) : Byte := (Memory.read? s.exp i).getD (Config.unwrittenExp s.tableEpoch i)

/-- `LOG[i]`: the entry, or a free value while nothing has been written there (10_state.md R31). -/
def State.logEntry (s : State) (i : Nat) : Byte := (Memory.read? s.log i).getD (Config.unwrittenLog s.tableEpoch i)

/-- `return v`: RES takes the result and ECODE becomes 0 (00_scope.md R10, 10_state.md R22). -/
def State.complete (s : State) (v : Word) : State := { s with res := v, ecode := 0 }

/-- `raise E()`: ECODE takes the error's code and nothing else changes (60_exceptions.md R150, R155). -/
def State.raise (s : State) (e : Err) : State := { s with ecode := e.code }

/-- The end of a command: its result, or its error. -/
def State.settle (s : State) : Except Err Word → State
  | .ok v => s.complete v
  | .error e => s.raise e

/-- The part of `execute_command` after decoding (30_encoding.md R66): NOT_READY while READY = 0, otherwise the outcome of
the command's own rule. It always answers a next state: a command never traps (60_exceptions.md R150). -/
def runCommand (s : State) (outcome : Except Err Word) : Host.Outcome State Fault Refusal :=
  .next (if s.ready then s.settle outcome else s.raise .notReady)

/-- The event at the head of the port has been taken: `rest` is left, and no read value stands from an earlier step. -/
def State.popped (s : State) (rest : List PortEvent) : State := { s with port := rest, rdata := none }

/-- The reset event (70_reset_and_hazards.md R170, values of 10_state.md R31): every piece of state takes its reset value
and the tables become unspecified anew. The platform's parameters and what arrives at the port are not block state. -/
def State.resetEvent (s : State) : State :=
  { State.reset with config := s.config, port := s.port, tableEpoch := s.tableEpoch + 1 }

end Sys2Proof.Machine
end

