-- ==== Sys2Proof/Machine/Field.lean ====
section
/-! DEFINITION. The pure functions on naturals that the engines are made of: carry-less multiply, polynomial division, the
direct field multiply and inverse (41_direct_engine.md), division and exponentiation over either engine (40_element_ops.md).
Loops are recursions on a count the spec bounds. -/

namespace Sys2Proof.Machine

/-- `bitlen(v)`: 0 for 0, otherwise `1 + floor(log2 v)` (00_scope.md R13). -/
def bitlen (v : Nat) : Nat := bif Nat.beq v 0 then 0 else Nat.log2 v + 1

/-- `clmul(a, b)` (41_direct_engine.md R100). -/
def clmul (a b : Nat) : Nat :=
  (List.range (bitlen a)).foldl (fun acc i => bif a.testBit i then acc ^^^ (b <<< i) else acc) 0

/-- The loop of `pdiv` (41_direct_engine.md R102), at most `k` iterations. -/
def pdivLoop : Nat → Nat → Nat → Nat → Nat
  | 0, _, q, _ => q
  | k + 1, d, q, r =>
    bif Nat.ble (bitlen d) (bitlen r) then
      pdivLoop k d (q ^^^ (1 <<< (bitlen r - bitlen d))) (r ^^^ clmul (1 <<< (bitlen r - bitlen d)) d)
    else q

/-- The quotient of `n` by a nonzero `d`: each iteration shortens the remainder, so `bitlen n` iterations are enough
(41_direct_engine.md R103). -/
def polyQuotient (n d : Nat) : Nat := pdivLoop (bitlen n) d 0 n

/-- `pdiv(n, d)` (41_direct_engine.md R102). -/
def pdiv (n d : Nat) : Except Err Nat := if d = 0 then .error .divZero else .ok (polyQuotient n d)

/-- `b` doubled and, when that overflows past bit 7, reduced by `POLY` (41_direct_engine.md R105). -/
def doubleReduce (b : Nat) : Nat := bif (b <<< 1).testBit 8 then (b <<< 1) ^^^ Config.poly else b <<< 1

/-- The loop of `mul_D`: `k` iterations left, whatever the operands (41_direct_engine.md R105). -/
def mulLoop : Nat → Nat → Nat → Nat → Nat
  | 0, _, _, p => p
  | k + 1, a, b, p => mulLoop k (a >>> 1) (doubleReduce b) (bif a.testBit 0 then p ^^^ b else p)

/-- `mul_D(a, b)`: exactly 8 iterations (41_direct_engine.md R105). -/
def mulD (a b : Nat) : Nat := mulLoop Config.mulIters a b 0

/-- The variables of the inverter's loop (41_direct_engine.md R110), with the number of iterations performed, which R112
speaks about. They are no state between commands (10_state.md R30). -/
structure Euclid where
  oldR : Nat
  r : Nat
  oldT : Nat
  t : Nat
  iters : Nat
deriving DecidableEq, Repr

/-- One iteration of the inverter's loop; both pairs are computed before either is written (41_direct_engine.md R110). -/
def euclidStep (e : Euclid) : Euclid :=
  { oldR := e.r
    r := e.oldR ^^^ clmul (polyQuotient e.oldR e.r) e.r
    oldT := e.t
    t := e.oldT ^^^ clmul (polyQuotient e.oldR e.r) e.t
    iters := e.iters + 1 }

/-- The inverter's loop, `while r != 0`, at most `k` iterations. -/
def euclidLoop : Nat → Euclid → Euclid
  | 0, e => e
  | k + 1, e => bif Nat.beq e.r 0 then e else euclidLoop k (euclidStep e)

/-- The loop's variables at exit for an element `a`: `bitlen a` iterations are enough (41_direct_engine.md R112). -/
def euclidOf (a : Nat) : Euclid := euclidLoop (bitlen a) { oldR := Config.poly, r := a, oldT := 0, t := 1, iters := 0 }

/-- `inv_D(a)` (41_direct_engine.md R110). -/
def invD (a : Nat) : Except Err Nat :=
  if a = 0 then .error .divZero
  else if (euclidOf a).oldR = 1 then .ok ((euclidOf a).oldT &&& 0xFF) else .error .internal

/-- `div_E(a, b)` over an engine's multiply and invert; the zero test comes first (40_element_ops.md R82). -/
def divE (mul : Nat → Nat → Nat) (inv : Nat → Except Err Nat) (a b : Nat) : Except Err Nat :=
  if b = 0 then .error .divZero else (inv b).map (mul a)

/-- `pow_E(a, e)`: `acc <- mul_E(acc, a)`, `e` times from 1 (40_element_ops.md R85). -/
def powE (mul : Nat → Nat → Nat) (a : Nat) : Nat → Nat
  | 0 => 1
  | e + 1 => mul (powE mul a e) a

end Sys2Proof.Machine
end

