-- ==== Sys2Proof/Machine/DirectEngine.lean ====
section
/-! DEFINITION. The direct engine's commands: CLMUL, PDIV, MUL.D, INV.D (41_direct_engine.md). -/

namespace Sys2Proof.Machine

/-- CLMUL (41_direct_engine.md R101). -/
def execClmul (s : State) : Host.Outcome State Fault Refusal :=
  runCommand s (withTwo (poly16 s.opa) (poly16 s.opb) fun a b => .ok (clmul a b))

/-- PDIV (41_direct_engine.md R104). -/
def execPdiv (s : State) : Host.Outcome State Fault Refusal :=
  runCommand s (withTwo (poly32 s.opa) (poly32 s.opb) pdiv)

/-- MUL.D (41_direct_engine.md R107). -/
def execMulD (s : State) : Host.Outcome State Fault Refusal :=
  runCommand s (withTwo (elem s.opa) (elem s.opb) fun a b => .ok (mulD a b))

/-- INV.D; OPB is ignored (41_direct_engine.md R113). -/
def execInvD (s : State) : Host.Outcome State Fault Refusal :=
  runCommand s (withOne (elem s.opa) invD)

end Sys2Proof.Machine
end

