-- ==== Sys2Proof/Machine/ElementOps.lean ====
section
/-! DEFINITION. The element operations: ADD, SUB, DIV.D, DIV.T, POW.D, POW.T (40_element_ops.md). -/

namespace Sys2Proof.Machine

/-- ADD (40_element_ops.md R80). -/
def execAdd (s : State) : Host.Outcome State Fault Refusal :=
  runCommand s (withTwo (elem s.opa) (elem s.opb) fun a b => .ok (a ^^^ b))

/-- SUB (40_element_ops.md R81). -/
def execSub (s : State) : Host.Outcome State Fault Refusal :=
  runCommand s (withTwo (elem s.opa) (elem s.opb) fun a b => .ok (a ^^^ b))

/-- DIV.D (40_element_ops.md R83). -/
def execDivD (s : State) : Host.Outcome State Fault Refusal :=
  runCommand s (withTwo (elem s.opa) (elem s.opb) (divE mulD invD))

/-- DIV.T (40_element_ops.md R84). -/
def execDivT (s : State) : Host.Outcome State Fault Refusal :=
  runCommand s (withTwo (elem s.opa) (elem s.opb) (divE (mulT s) (invT s)))

/-- POW.D (40_element_ops.md R86). -/
def execPowD (s : State) : Host.Outcome State Fault Refusal :=
  runCommand s (withTwo (elem s.opa) (elem s.opb) fun a e => .ok (powE mulD a e))

/-- POW.T (40_element_ops.md R87). -/
def execPowT (s : State) : Host.Outcome State Fault Refusal :=
  runCommand s (withTwo (elem s.opa) (elem s.opb) fun a e => .ok (powE (mulT s) a e))

end Sys2Proof.Machine
end

