-- ==== Sys2Proof/Machine/TableEngine.lean ====
section
/-! DEFINITION. The table engine's commands: MUL.T, INV.T, and the table reads RDEXP and RDLOG (42_table_engine.md). -/

namespace Sys2Proof.Machine

/-- MUL.T (42_table_engine.md R136). -/
def execMulT (s : State) : Host.Outcome State Fault Refusal :=
  runCommand s (withTwo (elem s.opa) (elem s.opb) fun a b => .ok (mulT s a b))

/-- INV.T; OPB is ignored (42_table_engine.md R138). -/
def execInvT (s : State) : Host.Outcome State Fault Refusal :=
  runCommand s (withOne (elem s.opa) (invT s))

/-- RDEXP; OPB is ignored (42_table_engine.md R139). -/
def execRdexp (s : State) : Host.Outcome State Fault Refusal :=
  runCommand s (withOne (index s.opa 0 254) fun i => .ok (s.expEntry i).toNat)

/-- RDLOG; OPB is ignored (42_table_engine.md R140). -/
def execRdlog (s : State) : Host.Outcome State Fault Refusal :=
  runCommand s (withOne (index s.opa 1 255) fun v => .ok (s.logEntry (v - 1)).toNat)

end Sys2Proof.Machine
end

