-- ==== Sys2Proof/Machine/Dispatch.lean ====
section
/-! DEFINITION. The dispatch of a decoded command to its meaning (30_encoding.md R63, R66). -/

namespace Sys2Proof.Machine

/-- Perform a decoded command. -/
def exec (i : Instr) (s : State) : Host.Outcome State Fault Refusal :=
  match i with
  | .add => Sys2Proof.Machine.execAdd s
  | .sub => Sys2Proof.Machine.execSub s
  | .clmul => Sys2Proof.Machine.execClmul s
  | .pdiv => Sys2Proof.Machine.execPdiv s
  | .rdexp => Sys2Proof.Machine.execRdexp s
  | .rdlog => Sys2Proof.Machine.execRdlog s
  | .mulD => Sys2Proof.Machine.execMulD s
  | .invD => Sys2Proof.Machine.execInvD s
  | .divD => Sys2Proof.Machine.execDivD s
  | .powD => Sys2Proof.Machine.execPowD s
  | .mulT => Sys2Proof.Machine.execMulT s
  | .invT => Sys2Proof.Machine.execInvT s
  | .divT => Sys2Proof.Machine.execDivT s
  | .powT => Sys2Proof.Machine.execPowT s

end Sys2Proof.Machine
end

