-- ==== Sys2Proof/Machine/Port.lean ====
section
/-! DEFINITION. The host port: the register map (10_state.md R27), the two accesses (20_memory.md R43, R44), which accesses
have a step (R41, R46, R47), and the command a CMD write performs (30_encoding.md R66). -/

namespace Sys2Proof.Machine

/-- The slots of the register window (10_state.md R27). -/
inductive Slot where
  | opa | opb | cmd | res | status | reserved
deriving DecidableEq, Repr

/-- The slot at a byte offset of the window (10_state.md R27). -/
def slotAt (off : Nat) : Slot :=
  match off / Config.accessBytes with
  | 0 => .opa
  | 1 => .opb
  | 2 => .cmd
  | 3 => .res
  | 4 => .status
  | _ => .reserved

/-- The byte offset of a named slot (10_state.md R27); of the three reserved slots, the first. -/
def offsetOf : Slot → Nat
  | .opa => 0x00
  | .opb => 0x04
  | .cmd => 0x08
  | .res => 0x0C
  | .status => 0x10
  | .reserved => 0x14

/-- The value a read returns, with no side effect (20_memory.md R43). -/
def State.slotValue (s : State) : Slot → Word
  | .opa => s.opa
  | .opb => s.opb
  | .cmd => 0
  | .res => s.res
  | .status => s.status
  | .reserved => 0

/-- `execute_command(w)` (30_encoding.md R66): an illegal word raises ILLEGAL before anything else is looked at. -/
def executeCommand (w : Word) (s : State) : Host.Outcome State Fault Refusal :=
  match decode w with
  | .ok i => exec i s
  | .error _ => .next (s.raise .illegal)

/-- What a write does (20_memory.md R44). -/
def writeSlot (slot : Slot) (v : Word) (s : State) : Host.Outcome State Fault Refusal :=
  match slot with
  | .opa => .next { s with opa := v }
  | .opb => .next { s with opb := v }
  | .cmd => executeCommand v s
  | .res => .next s
  | .status => .next s
  | .reserved => .next s

/-- The address falls in the window (20_memory.md R41). -/
def inWindow (c : Config) (addr : Nat) : Bool := Nat.ble c.gfBase addr && Nat.blt addr (c.gfBase + Config.window)

/-- Why an access has no step, if it has none: it is not the block's (20_memory.md R41), or not 32 bits wide (R46), or not
aligned (R47). -/
def refusalOf (c : Config) (addr width : Nat) : Option Refusal :=
  if inWindow c addr = false then some .outsideWindow
  else if width ≠ Config.accessBytes then some .accessWidth
  else if addr % 4 ≠ 0 then some .misaligned
  else none

/-- One access of HOST, whole and in one step (20_memory.md R48): a read returns the slot's value, a write acts on it. -/
def performAccess (a : Access) (s : State) : Host.Outcome State Fault Refusal :=
  match a with
  | .read addr width =>
    match refusalOf s.config addr width with
    | some r => .refused r
    | none => .next { s with rdata := some (s.slotValue (slotAt (addr - s.config.gfBase))) }
  | .write addr width data =>
    match refusalOf s.config addr width with
    | some r => .refused r
    | none => writeSlot (slotAt (addr - s.config.gfBase)) data s

/-- GEN's step, when it is pending (70_reset_and_hazards.md R172). -/
def genStep (s : State) : Host.Outcome State Fault Refusal :=
  if s.ready then .fault .genNotPending else .next s.generate

/-- Nothing arrives at the port: the pending generator step is taken, since nothing else can be and it is taken eventually
(70_reset_and_hazards.md R172); otherwise the block waits (R171). -/
def idleStep (s : State) : Host.Outcome State Fault Refusal := .next (if s.ready then s else s.generate)

/-- What one event does. -/
def performEvent (ev : PortEvent) (s : State) : Host.Outcome State Fault Refusal :=
  match ev with
  | .access a => performAccess a s
  | .gen => genStep s
  | .reset => .next s.resetEvent
  | .accessCutByReset _ => .refused .overlapsReset

/-- The access that writes `w` to CMD. -/
def cmdWrite (c : Config) (w : Word) : Access := .write (c.gfBase + offsetOf .cmd) Config.accessBytes w

end Sys2Proof.Machine
end

