-- ==== Sys2Proof/Machine/Step.lean ====
section
/-! DEFINITION. One step of the machine: the next event at the port, whole (00_scope.md R15, 20_memory.md R52). The block
fetches nothing (10_state.md R21): its next instruction is the word of the next CMD write. -/

namespace Sys2Proof.Machine

/-- One step: the event at the head of the port, or the idle step when nothing arrives. -/
def step (s : State) : Host.Outcome State Fault Refusal :=
  match s.port with
  | [] => idleStep (s.popped [])
  | ev :: rest => performEvent ev (s.popped rest)

/-- `s` with the instruction where the machine takes its next one from: a CMD write of that word at the head of the port, the
tables built if they are not, since no command performs its rule before that (30_encoding.md R66). Assumption log 6. -/
def State.withFetchWord (s : State) (nbits w : Nat) : State :=
  let s' := if s.ready then s else s.generate
  { s' with port := .access (cmdWrite s.config (BitVec.ofNat 32 (w % 2 ^ nbits))) :: s.port }

end Sys2Proof.Machine
end

