-- ==== Sys2Proof/Safety.lean ====
section
/-! DEFINITION. The terms statements use: which operands a command admits, what the tables hold once built, the invariant of
the machine, and which events at the port stop a run. -/

namespace Sys2Proof.Machine

/-- The register value is a field element (60_exceptions.md R152). -/
abbrev IsElem (r : Word) : Prop := r.toNat < 256

/-- The register value is admitted as poly16 (30_encoding.md R61). -/
abbrev IsPoly16 (r : Word) : Prop := r.toNat < 65536

/-- Every operand of the command is in its class (the operand columns of 30_encoding.md R63). -/
def OperandsAdmitted (i : Instr) (s : State) : Prop :=
  match i with
  | .add | .sub | .mulD | .divD | .powD | .mulT | .divT | .powT => IsElem s.opa ∧ IsElem s.opb
  | .clmul => IsPoly16 s.opa ∧ IsPoly16 s.opb
  | .pdiv => True
  | .invD | .invT => IsElem s.opa
  | .rdexp => s.opa.toNat ≤ 254
  | .rdlog => 1 ≤ s.opa.toNat ∧ s.opa.toNat ≤ 255

/-- The command meets a zero divisor or a zero argument of an inverse (60_exceptions.md R151, DIVZERO). -/
def ZeroDivisor (i : Instr) (s : State) : Prop :=
  match i with
  | .pdiv | .divD | .divT => s.opb = 0
  | .invD | .invT => s.opa = 0
  | .add | .sub | .clmul | .rdexp | .rdlog | .mulD | .powD | .mulT | .powT => False

/-- Every entry of both tables reads as 42_table_engine.md R134 lists it. -/
structure TablesBuilt (s : State) : Prop where
  exp : ∀ i < 255, (s.expEntry i).toNat = expContents.getD i 0
  log : ∀ i < 255, (s.logEntry i).toNat = logContents.getD i 0

/-- The machine's invariant: `GF_BASE` is legal, both table memories are canonical, ECODE is a code the block writes, and
the tables are built whenever READY = 1 (10_state.md R23, R24, R32). -/
structure Inv (s : State) : Prop where
  config : s.config.wf = true
  exp : Memory.wf s.exp = true
  log : Memory.wf s.log = true
  ecode : s.ecode.toNat ≤ 5
  tables : s.ready = true → TablesBuilt s

/-- An access the block admits: in the window, 32 bits wide, aligned (20_memory.md R41, R46, R47). -/
def Admitted (c : Config) : Access → Prop
  | .read addr width => refusalOf c addr width = none
  | .write addr width _ => refusalOf c addr width = none

end Sys2Proof.Machine
end

