-- ==== Sys2Proof/Certificates/Slice0/Obligations.lean ====
section
/-! DEFINITION. The statements about the machine, from the spec's numbered rules. "Completes" is written out every time:
`exec i s` answers `s` with RES and ECODE = 0 written and nothing else; "fails" answers `s` with ECODE written alone. -/

open Sys2Proof Sys2Proof.Machine

/-! ### The commands -/

/-- ADD (R80): on two elements RES is their exclusive or, an element; `a + a = 0` and `a + 0 = a`; otherwise RANGE. -/
def Obligations.AddXorsElements : Prop :=
  decode 0x00000001 = .ok .add ∧ ∀ s : State, s.ready = true →
    (IsElem s.opa → IsElem s.opb →
      exec .add s = .next { s with res := s.opa ^^^ s.opb, ecode := 0 } ∧ IsElem (s.opa ^^^ s.opb) ∧
      (s.opa = s.opb → exec .add s = .next { s with res := 0, ecode := 0 }) ∧
      (s.opb = 0 → exec .add s = .next { s with res := s.opa, ecode := 0 })) ∧
    (¬(IsElem s.opa ∧ IsElem s.opb) → exec .add s = .next { s with ecode := 3 })

/-- SUB (R81): exactly ADD's outcome; subtracting what was added gives the minuend back, and `a - a = 0`; otherwise RANGE. -/
def Obligations.SubUndoesAdd : Prop :=
  decode 0x00000002 = .ok .sub ∧ ∀ s : State, exec .sub s = exec .add s ∧ (s.ready = true →
    (IsElem s.opa → IsElem s.opb →
      exec .sub s = .next { s with res := s.opa ^^^ s.opb, ecode := 0 } ∧
      (∀ t, t = { s with opa := s.opa ^^^ s.opb } → exec .sub t = .next { t with res := s.opa, ecode := 0 }) ∧
      (s.opa = s.opb → exec .sub s = .next { s with res := 0, ecode := 0 })) ∧
    (¬(IsElem s.opa ∧ IsElem s.opb) → exec .sub s = .next { s with ecode := 3 }))

/-- CLMUL (R101): on two polynomials of degree at most 15 RES is the whole carry-less product, below 2^31; a zero operand gives
zero; 0xFFFF squared gives 0x55555555; otherwise RANGE. -/
def Obligations.ClmulGivesWholeProduct : Prop :=
  decode 0x00000003 = .ok .clmul ∧ ∀ s : State, s.ready = true →
    (IsPoly16 s.opa → IsPoly16 s.opb →
      exec .clmul s = .next { s with res := BitVec.ofNat 32 (clmul s.opa.toNat s.opb.toNat), ecode := 0 } ∧
      clmul s.opa.toNat s.opb.toNat < 2 ^ 31 ∧
      (s.opa = 0 ∨ s.opb = 0 → exec .clmul s = .next { s with res := 0, ecode := 0 }) ∧
      (s.opa = 0xFFFF → s.opb = 0xFFFF → exec .clmul s = .next { s with res := 0x55555555, ecode := 0 })) ∧
    (¬(IsPoly16 s.opa ∧ IsPoly16 s.opb) → exec .clmul s = .next { s with ecode := 3 })

/-- PDIV (R104): with a nonzero divisor RES is the whole quotient, and every 32-bit dividend is admitted; a zero divisor is
DIVZERO for every dividend; the corner cases of short dividends, of divisor 1 and of equal lengths. -/
def Obligations.PdivGivesQuotient : Prop :=
  decode 0x00000004 = .ok .pdiv ∧ ∀ s : State, s.ready = true →
    (s.opb ≠ 0 →
      (∃ q, pdiv s.opa.toNat s.opb.toNat = .ok q ∧ q < 2 ^ 32 ∧
        exec .pdiv s = .next { s with res := BitVec.ofNat 32 q, ecode := 0 }) ∧
      (bitlen s.opa.toNat < bitlen s.opb.toNat → exec .pdiv s = .next { s with res := 0, ecode := 0 }) ∧
      (s.opb = 1 → exec .pdiv s = .next { s with res := s.opa, ecode := 0 }) ∧
      (bitlen s.opa.toNat = bitlen s.opb.toNat → exec .pdiv s = .next { s with res := 1, ecode := 0 })) ∧
    (s.opb = 0 → exec .pdiv s = .next { s with ecode := 4 })

/-- RDEXP (R139): NOT_READY before the tables are built; an index up to 254 reads that entry of EXP, OPB ignored; above 254 is RANGE; entry 0 is 1 and entry 254 is
0xF6 once the tables are built. -/
def Obligations.RdexpReadsEntry : Prop :=
  decode 0x00000005 = .ok .rdexp ∧ ∀ s : State, (s.ready = false → exec .rdexp s = .next { s with ecode := 2 }) ∧ (s.ready = true →
    (s.opa.toNat ≤ 254 →
      exec .rdexp s = .next { s with res := (s.expEntry s.opa.toNat).setWidth 32, ecode := 0 }) ∧
    (254 < s.opa.toNat → exec .rdexp s = .next { s with ecode := 3 }) ∧
    (TablesBuilt s → s.opa = 0 → exec .rdexp s = .next { s with res := 1, ecode := 0 }) ∧
    (TablesBuilt s → s.opa = 254 → exec .rdexp s = .next { s with res := 0xF6, ecode := 0 }))

/-- RDLOG (R140): an element from 1 to 255 reads its logarithm, OPB ignored; 0 and values above 255 are RANGE; the logarithms
of 1, 3 and 0xFF are 0, 1 and 7 once the tables are built, and RDEXP gives the element back; NOT_READY before. -/
def Obligations.RdlogReadsLogarithm : Prop :=
  decode 0x00000006 = .ok .rdlog ∧ ∀ s : State, (s.ready = false → exec .rdlog s = .next { s with ecode := 2 }) ∧ (s.ready = true →
    (1 ≤ s.opa.toNat → s.opa.toNat ≤ 255 →
      exec .rdlog s = .next { s with res := (s.logEntry (s.opa.toNat - 1)).setWidth 32, ecode := 0 }) ∧
    (s.opa = 0 ∨ 255 < s.opa.toNat → exec .rdlog s = .next { s with ecode := 3 }) ∧
    (TablesBuilt s → s.opa = 1 → exec .rdlog s = .next { s with res := 0, ecode := 0 }) ∧
    (TablesBuilt s → s.opa = 3 → exec .rdlog s = .next { s with res := 1, ecode := 0 }) ∧
    (TablesBuilt s → s.opa = 0xFF → exec .rdlog s = .next { s with res := 7, ecode := 0 }) ∧
    (TablesBuilt s → 1 ≤ s.opa.toNat → s.opa.toNat ≤ 255 →
      (s.expEntry (s.logEntry (s.opa.toNat - 1)).toNat).toNat = s.opa.toNat))

/-- MUL.D (R107): on two elements RES is their direct-engine product, an element; a zero operand gives zero and 1 gives the
other operand; 2 times 0x80 is 0x1B and 0xFF squared is 0x13; otherwise RANGE; with the tables built the outcome is MUL.T's. -/
def Obligations.MulDMultipliesElements : Prop :=
  decode 0x00000010 = .ok .mulD ∧ ∀ s : State, s.ready = true →
    (IsElem s.opa → IsElem s.opb →
      exec .mulD s = .next { s with res := BitVec.ofNat 32 (mulD s.opa.toNat s.opb.toNat), ecode := 0 } ∧
      mulD s.opa.toNat s.opb.toNat < 256 ∧
      (s.opa = 0 ∨ s.opb = 0 → exec .mulD s = .next { s with res := 0, ecode := 0 }) ∧
      (s.opa = 1 → exec .mulD s = .next { s with res := s.opb, ecode := 0 }) ∧
      (s.opb = 1 → exec .mulD s = .next { s with res := s.opa, ecode := 0 }) ∧
      (s.opa = 2 → s.opb = 0x80 → exec .mulD s = .next { s with res := 0x1B, ecode := 0 }) ∧
      (s.opa = 0xFF → s.opb = 0xFF → exec .mulD s = .next { s with res := 0x13, ecode := 0 })) ∧
    (¬(IsElem s.opa ∧ IsElem s.opb) → exec .mulD s = .next { s with ecode := 3 }) ∧
    (TablesBuilt s → exec .mulD s = exec .mulT s)

/-- INV.D (R113): a nonzero element always has its inverse as result (INTERNAL never), whatever OPB holds; zero is DIVZERO; a
non-element is RANGE; four inverses the rule names; with the tables built the outcome is INV.T's. -/
def Obligations.InvDInvertsElement : Prop :=
  decode 0x00000011 = .ok .invD ∧ ∀ s : State, s.ready = true →
    (IsElem s.opa → s.opa ≠ 0 →
      ∃ i, invD s.opa.toNat = .ok i ∧ i < 256 ∧ mulD s.opa.toNat i = 1 ∧
        exec .invD s = .next { s with res := BitVec.ofNat 32 i, ecode := 0 }) ∧
    (s.opa = 0 → exec .invD s = .next { s with ecode := 4 }) ∧
    (¬IsElem s.opa → exec .invD s = .next { s with ecode := 3 }) ∧
    (∀ p ∈ [(0x01#32, 0x01#32), (0x02, 0x8D), (0xFF, 0x1C), (0x80, 0x83)], s.opa = p.1 →
      exec .invD s = .next { s with res := p.2, ecode := 0 }) ∧
    (TablesBuilt s → exec .invD s = exec .invT s)

/-- DIV.D (R83, with `div_D` of R82): dividend times the divisor's inverse; a non-element is RANGE before anything; a zero
divisor is DIVZERO for every dividend; the corner cases, among them that a product divided by a factor gives the other. -/
def Obligations.DivDMultipliesByInverse : Prop :=
  decode 0x00000012 = .ok .divD ∧ ∀ s : State, s.ready = true →
    (IsElem s.opa → IsElem s.opb → s.opb ≠ 0 →
      (∃ i, invD s.opb.toNat = .ok i ∧
        exec .divD s = .next { s with res := BitVec.ofNat 32 (mulD s.opa.toNat i), ecode := 0 } ∧
        (s.opa = 1 → exec .divD s = .next { s with res := BitVec.ofNat 32 i, ecode := 0 })) ∧
      (s.opa = 0 → exec .divD s = .next { s with res := 0, ecode := 0 }) ∧
      (s.opb = 1 → exec .divD s = .next { s with res := s.opa, ecode := 0 }) ∧
      (s.opa = s.opb → exec .divD s = .next { s with res := 1, ecode := 0 }) ∧
      (∀ t, t = { s with opa := BitVec.ofNat 32 (mulD s.opa.toNat s.opb.toNat) } →
        exec .divD t = .next { t with res := s.opa, ecode := 0 })) ∧
    (IsElem s.opa → s.opb = 0 → exec .divD s = .next { s with ecode := 4 }) ∧
    (¬(IsElem s.opa ∧ IsElem s.opb) → exec .divD s = .next { s with ecode := 3 })

/-- DIV.T (R84, with `div_T` of R82): the table engine's multiply by the table engine's inverse; RANGE before DIVZERO; a zero
dividend gives zero; with the tables built the outcome is DIV.D's; NOT_READY before. -/
def Obligations.DivTMultipliesByInverse : Prop :=
  decode 0x0000001A = .ok .divT ∧ ∀ s : State, (s.ready = false → exec .divT s = .next { s with ecode := 2 }) ∧ (s.ready = true →
    (IsElem s.opa → IsElem s.opb → s.opb ≠ 0 →
      (∃ i, invT s s.opb.toNat = .ok i ∧
        exec .divT s = .next { s with res := BitVec.ofNat 32 (mulT s s.opa.toNat i), ecode := 0 }) ∧
      (s.opa = 0 → exec .divT s = .next { s with res := 0, ecode := 0 })) ∧
    (IsElem s.opa → s.opb = 0 → exec .divT s = .next { s with ecode := 4 }) ∧
    (¬(IsElem s.opa ∧ IsElem s.opb) → exec .divT s = .next { s with ecode := 3 }) ∧
    (TablesBuilt s → exec .divT s = exec .divD s))

/-- POW.D (R86, with `pow_D` of R85): the product of OPB factors OPA; exponent 0 gives 1 for every base, a zero base gives 0
for a positive exponent, exponent 255 gives 1 and 254 the inverse for a nonzero base; otherwise RANGE. -/
def Obligations.PowDMultipliesRepeatedly : Prop :=
  decode 0x00000013 = .ok .powD ∧ ∀ s : State, s.ready = true →
    (IsElem s.opa → IsElem s.opb →
      exec .powD s = .next { s with res := BitVec.ofNat 32 (powE mulD s.opa.toNat s.opb.toNat), ecode := 0 } ∧
      powE mulD s.opa.toNat s.opb.toNat < 256 ∧
      (s.opb = 0 → exec .powD s = .next { s with res := 1, ecode := 0 }) ∧
      (s.opa = 0 → s.opb ≠ 0 → exec .powD s = .next { s with res := 0, ecode := 0 }) ∧
      (s.opb = 1 → exec .powD s = .next { s with res := s.opa, ecode := 0 }) ∧
      (s.opa = 1 → exec .powD s = .next { s with res := 1, ecode := 0 }) ∧
      (s.opa ≠ 0 → s.opb = 255 → exec .powD s = .next { s with res := 1, ecode := 0 }) ∧
      (s.opa ≠ 0 → s.opb = 254 → exec .powD s = exec .invD s)) ∧
    (¬(IsElem s.opa ∧ IsElem s.opb) → exec .powD s = .next { s with ecode := 3 })

/-- POW.T (R87, with `pow_T` of R85): the same product over the table engine; with the tables built the outcome is POW.D's;
otherwise RANGE, and NOT_READY before the tables are built. -/
def Obligations.PowTMultipliesRepeatedly : Prop :=
  decode 0x0000001B = .ok .powT ∧ ∀ s : State, (s.ready = false → exec .powT s = .next { s with ecode := 2 }) ∧ (s.ready = true →
    (IsElem s.opa → IsElem s.opb →
      exec .powT s = .next { s with res := BitVec.ofNat 32 (powE (mulT s) s.opa.toNat s.opb.toNat), ecode := 0 } ∧
      (s.opb = 0 → exec .powT s = .next { s with res := 1, ecode := 0 }) ∧
      (s.opa = 0 → s.opb ≠ 0 → exec .powT s = .next { s with res := 0, ecode := 0 })) ∧
    (¬(IsElem s.opa ∧ IsElem s.opb) → exec .powT s = .next { s with ecode := 3 }) ∧
    (TablesBuilt s → exec .powT s = exec .powD s))

/-- MUL.T (R136, with `mul_T` of R135): a zero operand gives zero whatever the tables hold; otherwise the EXP entry at the sum
of the logarithms modulo 255, read without loss; otherwise RANGE, and NOT_READY before the tables are built; with them built, three products and MUL.D's
outcome. -/
def Obligations.MulTAddsLogarithms : Prop :=
  decode 0x00000018 = .ok .mulT ∧ ∀ s : State, (s.ready = false → exec .mulT s = .next { s with ecode := 2 }) ∧ (s.ready = true →
    (IsElem s.opa → IsElem s.opb → s.opa = 0 ∨ s.opb = 0 → exec .mulT s = .next { s with res := 0, ecode := 0 }) ∧
    (IsElem s.opa → IsElem s.opb → s.opa ≠ 0 → s.opb ≠ 0 →
      exec .mulT s = .next { s with
        res := (s.expEntry (((s.logEntry (s.opa.toNat - 1)).toNat + (s.logEntry (s.opb.toNat - 1)).toNat) % 255)).setWidth 32
        ecode := 0 }) ∧
    (¬(IsElem s.opa ∧ IsElem s.opb) → exec .mulT s = .next { s with ecode := 3 }) ∧
    (TablesBuilt s → ∀ p ∈ [(0x01#32, 0x01#32, 0x01#32), (0x1B, 0x10, 0xAB), (0xFF, 0xFF, 0x13)],
      s.opa = p.1 → s.opb = p.2.1 → exec .mulT s = .next { s with res := p.2.2, ecode := 0 }) ∧
    (TablesBuilt s → exec .mulT s = exec .mulD s))

/-- INV.T (R138, with `inv_T` of R137): a nonzero element gives the EXP entry at its negated logarithm, whatever OPB holds;
zero is DIVZERO; a non-element is RANGE; NOT_READY before the tables are built; with them built, the inverses of 1
and 3, and INV.D's outcome. -/
def Obligations.InvTNegatesLogarithm : Prop :=
  decode 0x00000019 = .ok .invT ∧ ∀ s : State, (s.ready = false → exec .invT s = .next { s with ecode := 2 }) ∧ (s.ready = true →
    (IsElem s.opa → s.opa ≠ 0 →
      exec .invT s = .next { s with
        res := (s.expEntry ((255 - (s.logEntry (s.opa.toNat - 1)).toNat) % 255)).setWidth 32
        ecode := 0 }) ∧
    (s.opa = 0 → exec .invT s = .next { s with ecode := 4 }) ∧
    (¬IsElem s.opa → exec .invT s = .next { s with ecode := 3 }) ∧
    (TablesBuilt s → s.opa = 1 → exec .invT s = .next { s with res := 1, ecode := 0 }) ∧
    (TablesBuilt s → s.opa = 3 → exec .invT s = .next { s with res := 0xF6, ecode := 0 }) ∧
    (TablesBuilt s → exec .invT s = exec .invD s))

/-! ### Encoding, and the step that runs a decoded command -/

/-- The opcode map (R63) and the decoder (R65): a word is the command `i` exactly when it is `i`'s word of the map, so decoding
and encoding agree on every 32-bit word. -/
def Obligations.DecodeInvertsOpcodeMap : Prop :=
  (∀ (w : Word) (i : Instr), decode w = .ok i ↔ w = encode i) ∧
  encode .add = 0x00000001 ∧ encode .sub = 0x00000002 ∧ encode .clmul = 0x00000003 ∧ encode .pdiv = 0x00000004 ∧
  encode .rdexp = 0x00000005 ∧ encode .rdlog = 0x00000006 ∧
  encode .mulD = 0x00000010 ∧ encode .invD = 0x00000011 ∧ encode .divD = 0x00000012 ∧ encode .powD = 0x00000013 ∧
  encode .mulT = 0x00000018 ∧ encode .invT = 0x00000019 ∧ encode .divT = 0x0000001A ∧ encode .powT = 0x0000001B

/-- Reserved and illegal words (R64): exactly the words with a bit set above bit 7 or an OP outside the map, and a CMD write of
one sets ECODE to ILLEGAL and changes nothing else, ready or not. -/
def Obligations.IllegalWordOnlySetsEcode : Prop :=
  (∀ w : Word, (∃ e, decode w = .error e) ↔
    w.extractLsb 31 8 ≠ 0 ∨ (w.extractLsb 7 0).toNat = 0x00 ∨
      (0x07 ≤ (w.extractLsb 7 0).toNat ∧ (w.extractLsb 7 0).toNat ≤ 0x0F) ∨
      (0x14 ≤ (w.extractLsb 7 0).toNat ∧ (w.extractLsb 7 0).toNat ≤ 0x17) ∨ 0x1C ≤ (w.extractLsb 7 0).toNat) ∧
  ∀ (s : State) (w : Word) (rest : List PortEvent), s.config.wf = true →
    s.port = .access (.write (s.config.gfBase + 0x08) 4 w) :: rest → (∃ e, decode w = .error e) →
    step s = .next { s with port := rest, rdata := none, ecode := 1 }

/-- The engine of a command is its word's bit 3 inside the group OP[7:4] = 0b0001 (R60, R62). -/
def Obligations.EngineBitNamesEngine : Prop :=
  ∀ i : Instr, ((encode i).extractLsb 7 4 = 0b0001#4 ↔ i ∈ [.mulD, .invD, .divD, .powD, .mulT, .invT, .divT, .powT]) ∧
    ((encode i).extractLsb 7 4 = 0b0001#4 → (encode i).getLsbD 2 = false ∧
      (engineOf i = .table ↔ (encode i).getLsbD 3 = true) ∧ (engineOf i = .direct ↔ (encode i).getLsbD 3 = false))

/-- Words written out from R60 and R63 decode to the commands they stand for; one with a reserved bit, one with the group's
bit 2 set and the zero word decode to none. -/
def Obligations.SampleWordsDecode : Prop :=
  decode 0b00000000000000000000000000000001#32 = .ok .add ∧
  decode 0b00000000000000000000000000000100#32 = .ok .pdiv ∧
  decode 0b00000000000000000000000000000110#32 = .ok .rdlog ∧
  decode 0b00000000000000000000000000010010#32 = .ok .divD ∧
  decode 0b00000000000000000000000000011011#32 = .ok .powT ∧
  decode 0b00000000000000000000000100010000#32 = .error .reservedBits ∧
  decode 0b00000000000000000000000000010100#32 = .error .reservedOp ∧
  decode 0#32 = .error .reservedOp

/-- A CMD write of a word that decodes runs that command: the step is `exec` of it, on the state whose port has moved past the
write (R44, R66). -/
def Obligations.StepRunsDecodedCommand : Prop :=
  ∀ (s : State) (w : Word) (i : Instr) (rest : List PortEvent), s.config.wf = true →
    s.port = .access (.write (s.config.gfBase + 0x08) 4 w) :: rest → decode w = .ok i →
    step s = exec i { s with port := rest, rdata := none }

/-- `execute_command` (R66) with the error priority of R154: ILLEGAL, NOT_READY, RANGE, DIVZERO in that order, otherwise the
command completes; in every case the CMD write is one step that changes only ECODE, and RES when it completes. -/
def Obligations.CmdWriteReportsFirstError : Prop :=
  ∀ (s : State) (w : Word) (rest : List PortEvent), s.config.wf = true →
    s.port = .access (.write (s.config.gfBase + 0x08) 4 w) :: rest →
    (∀ e, decode w = .error e → step s = .next { s with port := rest, rdata := none, ecode := 1 }) ∧
    ∀ i, decode w = .ok i →
      (s.ready = false → step s = .next { s with port := rest, rdata := none, ecode := 2 }) ∧
      (s.ready = true → ¬OperandsAdmitted i s → step s = .next { s with port := rest, rdata := none, ecode := 3 }) ∧
      (s.ready = true → OperandsAdmitted i s → ZeroDivisor i s →
        step s = .next { s with port := rest, rdata := none, ecode := 4 }) ∧
      (s.ready = true → OperandsAdmitted i s → ¬ZeroDivisor i s →
        ∃ v, step s = .next { s with port := rest, rdata := none, res := v, ecode := 0 })

/-- The model's `withFetchWord` (assumption log 6, the model's own): the very next step runs the word's command, on the state
whose tables are built if they were not. -/
def Obligations.FetchWordRunsCommand : Prop :=
  ∀ (s : State) (nbits w : Nat) (i : Instr), s.config.wf = true → decodeTableWord nbits w = some i →
    (s.ready = true → step (s.withFetchWord nbits w) = exec i { s with rdata := none }) ∧
    (s.ready = false → step (s.withFetchWord nbits w) = exec i { s.generate with rdata := none })

/-! ### What every command keeps and reports -/

/-- While READY = 0 every command, of either engine, sets ECODE to NOT_READY and changes nothing else (R173, R151). -/
def Obligations.NotReadyCommandOnlySetsEcode : Prop :=
  ∀ (i : Instr) (s : State), s.ready = false → exec i s = .next { s with ecode := 2 }

/-- The frame of all fourteen commands (R20, R66): only RES and ECODE can differ, so OPA, OPB, READY and every entry of both
tables are as before. -/
def Obligations.CommandFrame : Prop :=
  ∀ (i : Instr) (s t : State), exec i s = .next t →
    t = { s with res := t.res, ecode := t.ecode } ∧ t.opa = s.opa ∧ t.opb = s.opb ∧ t.ready = s.ready ∧
    ∀ k, t.expEntry k = s.expEntry k ∧ t.logEntry k = s.logEntry k

/-- The effect of an error (R155): a command that ends with ECODE other than 0 leaves everything but ECODE as it was, RES too. -/
def Obligations.FailingCommandKeepsResult : Prop :=
  ∀ (i : Instr) (s t : State), exec i s = .next t → t.ecode ≠ 0 → t = { s with ecode := t.ecode }

/-- A command never traps and never hangs (R150, R16): every command answers a next state from every state. -/
def Obligations.EveryCommandAnswersNext : Prop :=
  ∀ (i : Instr) (s : State), ∃ t, exec i s = .next t

/-- INTERNAL is never raised (R111), and no command writes a reserved code (R24): a command leaves ECODE from 0 to 4. -/
def Obligations.CommandNeverReportsInternal : Prop :=
  ∀ (i : Instr) (s t : State), exec i s = .next t → t.ecode.toNat ≤ 4

/-- Repeating a CMD write repeats the command (R45): performed on its own outcome, a command answers that outcome again. -/
def Obligations.RepeatedCommandRepeatsOutcome : Prop :=
  ∀ (i : Instr) (s t : State), exec i s = .next t → exec i t = .next t

/-- No command leaves anything behind except RES and ECODE (R30): a command that completes gives the same next state whatever
RES and ECODE held before. -/
def Obligations.ResultIgnoresEarlierResults : Prop :=
  ∀ (i : Instr) (s t : State) (r : Word) (e : BitVec 4), exec i s = .next t → t.ecode = 0 →
    exec i { s with res := r, ecode := e } = .next t

/-- The one-operand commands do not read or check OPB (R61, `ignored`). -/
def Obligations.OneOperandCommandsIgnoreOpb : Prop :=
  ∀ i ∈ [Instr.invD, .invT, .rdexp, .rdlog], ∀ (s t : State) (v : Word), exec i s = .next t →
    exec i { s with opb := v } = .next { t with opb := v }

/-- Every table read a command makes is at an index from 0 to 254 (R49): tables that agree there give the same outcome. -/
def Obligations.CommandsReadTablesInsideLength : Prop :=
  ∀ (i : Instr) (s t : State) (exp' log' : Memory),
    (∀ k < 255, ({ s with exp := exp', log := log' } : State).expEntry k = s.expEntry k ∧
      ({ s with exp := exp', log := log' } : State).logEntry k = s.logEntry k) →
    exec i s = .next t → exec i { s with exp := exp', log := log' } = .next { t with exp := exp', log := log' }

/-! ### The generator and the tables -/

/-- The generator step (R133), enabled while READY = 0: EXP holds the powers of 3 (R130) and LOG their inverse (R131); only
the tables and READY are written, besides the event leaving the port. -/
def Obligations.GeneratorStepFillsTables : Prop :=
  ∀ (s : State) (rest : List PortEvent), s.port = .gen :: rest → s.ready = false →
    ∃ t, step s = .next t ∧
      t = { s with port := rest, rdata := none, ready := true, exp := t.exp, log := t.log } ∧
      t.expEntry 0 = 1 ∧ (∀ i < 254, (t.expEntry (i + 1)).toNat = mulD (t.expEntry i).toNat 3) ∧
      (∀ i < 255, (t.logEntry ((t.expEntry i).toNat - 1)).toNat = i) ∧
      ∀ v, 1 ≤ v → v ≤ 255 → (t.logEntry (v - 1)).toNat ≤ 254 ∧ (t.expEntry (t.logEntry (v - 1)).toNat).toNat = v

/-- The generator's tables are, entry by entry, the ones the spec lists (R134). -/
def Obligations.GeneratorGivesListedTables : Prop :=
  ∀ s : State, TablesBuilt s.generate

/-- GEN has no second step (R172): with READY = 1 a schedule that names it stops. With nothing at the port the pending step is
taken and otherwise the block waits, which is the model's choice (assumption log 5). -/
def Obligations.GeneratorStepIsTakenOnce : Prop :=
  (∀ (s : State) (rest : List PortEvent), s.port = .gen :: rest → s.ready = true → step s = .fault .genNotPending) ∧
  (∀ s : State, s.port = [] → s.ready = false → step s = .next { s.generate with rdata := none }) ∧
  (∀ s : State, s.port = [] → s.ready = true → step s = .next { s with rdata := none })

/-- The tables are well formed (R132): EXP lists every nonzero element exactly once and its values are in range, LOG is its
inverse both ways, and the power after the last entry is 1 again. -/
def Obligations.TablesAreInverseBijections : Prop :=
  ∀ s : State, TablesBuilt s →
    (∀ v, 1 ≤ v → v ≤ 255 → ∃! i, i < 255 ∧ (s.expEntry i).toNat = v) ∧
    (∀ i < 255, 1 ≤ (s.expEntry i).toNat ∧ (s.logEntry i).toNat ≤ 254 ∧
      (s.logEntry ((s.expEntry i).toNat - 1)).toNat = i) ∧
    (∀ v, 1 ≤ v → v ≤ 255 → (s.expEntry (s.logEntry (v - 1)).toNat).toNat = v) ∧
    (s.logEntry 0).toNat = 0 ∧ (s.logEntry 2).toNat = 1 ∧ (s.expEntry 254).toNat = 0xF6 ∧
    mulD (s.expEntry 254).toNat 3 = 1

/-- RDEXP of RDLOG's result gives the element back (R140), as the two commands run one after the other. -/
def Obligations.RdexpOfRdlogGivesElementBack : Prop :=
  ∀ s : State, s.ready = true → TablesBuilt s → 1 ≤ s.opa.toNat → s.opa.toNat ≤ 255 →
    ∃ t, exec .rdlog s = .next t ∧ t.ecode = 0 ∧
      exec .rdexp { t with opa := t.res } = .next { t with opa := t.res, res := s.opa, ecode := 0 }

/-! ### The host port, reset and the status register -/

/-- Reads (R43): each slot of the register map returns its value, STATUS as `zext_32({ECODE, 0b000, READY})`, and a read has no
side effect. -/
def Obligations.ReadReturnsSlotValue : Prop :=
  ∀ (s : State) (rest : List PortEvent), s.config.wf = true →
    ∀ p ∈ [(0x00, s.opa), (0x04, s.opb), (0x08, 0), (0x0C, s.res),
        (0x10, (s.ecode ++ 0b000#3 ++ BitVec.ofBool s.ready : BitVec 8).setWidth 32), (0x14, 0), (0x18, 0), (0x1C, 0)],
      s.port = .access (.read (s.config.gfBase + p.1) 4) :: rest →
      step s = .next { s with port := rest, rdata := some p.2 }

/-- Writes (R44): OPA and OPB take all 32 bits unchecked, CMD performs the command, every other slot ignores the write. -/
def Obligations.WriteActsOnSlot : Prop :=
  ∀ (s : State) (v : Word) (rest : List PortEvent), s.config.wf = true →
    (s.port = .access (.write (s.config.gfBase + 0x00) 4 v) :: rest →
      step s = .next { s with port := rest, rdata := none, opa := v }) ∧
    (s.port = .access (.write (s.config.gfBase + 0x04) 4 v) :: rest →
      step s = .next { s with port := rest, rdata := none, opb := v }) ∧
    (s.port = .access (.write (s.config.gfBase + 0x08) 4 v) :: rest →
      step s = executeCommand v { s with port := rest, rdata := none }) ∧
    ∀ off ∈ [0x0C, 0x10, 0x14, 0x18, 0x1C], s.port = .access (.write (s.config.gfBase + off) 4 v) :: rest →
      step s = .next { s with port := rest, rdata := none }

/-- An access to the window that is not 32 bits wide has no step (R46), and neither has a misaligned 32-bit one (R47), read or
write. -/
def Obligations.UnadmittedAccessHasNoStep : Prop :=
  ∀ (s : State) (rest : List PortEvent) (a : Access) (addr width : Nat),
    a = .read addr width ∨ (∃ v, a = .write addr width v) → s.port = .access a :: rest →
    s.config.gfBase ≤ addr → addr < s.config.gfBase + 0x20 →
    (width ≠ 4 → step s = .refused .accessWidth) ∧ (width = 4 → addr % 4 ≠ 0 → step s = .refused .misaligned)

/-- An access at an address outside the window is not the block's, which takes no step (R41; 93_implementation_defined.md
row 13); nor is there a step for an access that overlaps a reset (R178; row 12). -/
def Obligations.ForeignAccessHasNoStep : Prop :=
  (∀ (s : State) (rest : List PortEvent) (a : Access) (addr width : Nat),
    a = .read addr width ∨ (∃ v, a = .write addr width v) → s.port = .access a :: rest →
    addr < s.config.gfBase ∨ s.config.gfBase + 0x20 ≤ addr → step s = .refused .outsideWindow) ∧
  ∀ (s : State) (rest : List PortEvent) (a : Access), s.port = .accessCutByReset a :: rest →
    step s = .refused .overlapsReset

/-- Two accesses in port order (R52): a read of OPA or OPB returns the value the preceding write stored, all 32 bits of it. -/
def Obligations.ReadReturnsPrecedingWrite : Prop :=
  ∀ (s : State) (v : Word) (rest : List PortEvent) (off : Nat), s.config.wf = true → off = 0x00 ∨ off = 0x04 →
    s.port = .access (.write (s.config.gfBase + off) 4 v) :: .access (.read (s.config.gfBase + off) 4) :: rest →
    ∃ t u, step s = .next t ∧ step t = .next u ∧ u.rdata = some v

/-- The reset event (R170, R31) from every state, ready or not: registers and STATUS are zero, the generator step is pending,
and table entries hold free values. The platform's parameters and the rest of the port stay (the model's fields). -/
def Obligations.ResetClearsRegisters : Prop :=
  ∀ (s : State) (rest : List PortEvent), s.port = .reset :: rest →
    ∃ t, step s = .next t ∧ t.opa = 0 ∧ t.opb = 0 ∧ t.res = 0 ∧ t.ready = false ∧ t.ecode = 0 ∧ t.status = 0 ∧
      t.config = s.config ∧ t.port = rest ∧
      ∀ k, t.expEntry k = Config.unwrittenExp (s.tableEpoch + 1) k ∧ t.logEntry k = Config.unwrittenLog (s.tableEpoch + 1) k

/-- The STATUS layout (R24): bit 0 is READY, bits 7:4 are ECODE, and the reserved bits 3:1 and 31:8 read zero. -/
def Obligations.StatusFieldsAndReservedBits : Prop :=
  ∀ s : State, s.status.getLsbD 0 = s.ready ∧ s.status.extractLsb 7 4 = s.ecode ∧
    s.status.extractLsb 3 1 = 0#3 ∧ s.status.extractLsb 31 8 = 0#24

/-! ### Promises about the whole machine -/

/-- The machine's invariant is kept by every step (R32): ECODE stays in [0, 5], the tables are the listed ones whenever
READY = 1, and they do not change until the next reset. -/
def Obligations.StepKeepsInvariant : Prop :=
  ∀ s t : State, Inv s → step s = .next t →
    Inv t ∧ (s.ready = true → s.port.head? ≠ some .reset → t.exp = s.exp ∧ t.log = s.log)

/-- The reset state meets the invariant. -/
def Obligations.ResetStateMeetsInvariant : Prop :=
  Inv State.reset

/-- Only reset clears READY and only the generator step sets it; no command changes it (R23). -/
def Obligations.OnlyResetAndGeneratorChangeReady : Prop :=
  ∀ s t : State, step s = .next t → s.ready ≠ t.ready →
    (s.ready = true ∧ s.port.head? = some .reset) ∨
    (s.ready = false ∧ (s.port = [] ∨ s.port.head? = some .gen))

/-- A value in OPA or OPB stays until the next host write to that register or a reset (R20); no command writes them. -/
def Obligations.OperandsKeptUntilWrittenOrReset : Prop :=
  ∀ s t : State, s.config.wf = true → step s = .next t → s.port.head? ≠ some .reset →
    ((∀ v, s.port.head? ≠ some (.access (.write (s.config.gfBase + 0x00) 4 v))) → t.opa = s.opa) ∧
    ((∀ v, s.port.head? ≠ some (.access (.write (s.config.gfBase + 0x04) 4 v))) → t.opb = s.opb)

/-- The lifetime of ECODE and RES (R156, R22): without a CMD write and without a reset neither changes, and RES changes at a
CMD write only when the command completes. -/
def Obligations.OutcomeKeptUntilNextCommandOrReset : Prop :=
  ∀ s t : State, s.config.wf = true → step s = .next t → s.port.head? ≠ some .reset →
    ((∀ w, s.port.head? ≠ some (.access (.write (s.config.gfBase + 0x08) 4 w))) → t.ecode = s.ecode ∧ t.res = s.res) ∧
    (t.res ≠ s.res → t.ecode = 0)

/-- `HAS_ACCEL` has no observable effect (R7): it changes no step; and no step changes a parameter of the platform. -/
def Obligations.AcceleratorHasNoEffect : Prop :=
  ∀ (s : State) (b : Bool), (∀ t, step s = .next t → t.config = s.config) ∧
    (∀ t, step s = .next t → step { s with config := { s.config with hasAccel := b } } =
      .next { t with config := { t.config with hasAccel := b } }) ∧
    (∀ f, step s = .fault f → step { s with config := { s.config with hasAccel := b } } = .fault f) ∧
    ∀ r, step s = .refused r → step { s with config := { s.config with hasAccel := b } } = .refused r

/-- A host that waits for READY does not wait for ever (R172, weakly fair): when the port holds only admitted accesses, the
machine performs them all and has built the tables one step later. That the step comes then is the model's choice
(assumption log 5). -/
def Obligations.GeneratorStepComesWhenPortDrains : Prop :=
  ∀ s : State, s.ready = false → (∀ ev ∈ s.port, ∃ a, ev = .access a ∧ Admitted s.config a) →
    ∃ t, Sys2Proof.core.run (s.port.length + 1) s = .next t ∧ t.ready = true ∧ t.port = [] ∧ TablesBuilt t

/-! ### The arithmetic of the engines -/

/-- Cross-engine equivalence (R89): from every state whose tables are built if it is ready, the two engines' commands have the
same outcome for MUL, INV, DIV and POW, on all operands and with all errors. -/
def Obligations.EnginesAgree : Prop :=
  ∀ s : State, (s.ready = true → TablesBuilt s) →
    exec .mulD s = exec .mulT s ∧ exec .invD s = exec .invT s ∧ exec .divD s = exec .divT s ∧ exec .powD s = exec .powT s

/-- `mul_D` (R106): doubling keeps an element an element, the product of elements is an element and is the remainder of their
carry-less product divided by POLY; it is commutative and associative, with 0 and 1 as expected. -/
def Obligations.MulDIsProductModuloPoly : Prop :=
  (∀ b < 256, doubleReduce b < 256) ∧
  ∀ a < 256, ∀ b < 256,
    mulD a b < 256 ∧ mulD a b = clmul a b ^^^ clmul (polyQuotient (clmul a b) 0x11B) 0x11B ∧
    mulD a b = mulD b a ∧ mulD a 0 = 0 ∧ mulD a 1 = a ∧ ∀ c < 256, mulD (mulD a b) c = mulD a (mulD b c)

/-- The field laws (R88), for the multiply and invert of both engines, the table engine's over built tables. -/
def Obligations.FieldLawsHold : Prop :=
  ∀ (mul : Nat → Nat → Nat) (inv : Nat → Except Err Nat),
    (mul = mulD ∧ inv = invD) ∨ (∃ s, TablesBuilt s ∧ mul = mulT s ∧ inv = invT s) →
    ∀ a < 256, ∀ b < 256, ∀ c < 256,
      a ^^^ b < 256 ∧ mul a b < 256 ∧ a ^^^ b = b ^^^ a ∧ mul a b = mul b a ∧
      (a ^^^ b) ^^^ c = a ^^^ (b ^^^ c) ∧ mul (mul a b) c = mul a (mul b c) ∧
      mul a (b ^^^ c) = mul a b ^^^ mul a c ∧ mul (b ^^^ c) a = mul b a ^^^ mul c a ∧
      ((∀ x < 256, x ^^^ c = x) ↔ c = 0) ∧ mul a 1 = a ∧ a ^^^ a = 0 ∧
      (a ≠ 0 → ∃ i < 256, inv a = .ok i ∧ mul a i = 1 ∧ ∀ j < 256, mul a j = 1 → j = i) ∧
      (a ^^^ b) ^^^ b = a ∧ (b ≠ 0 → divE mul inv (mul a b) b = .ok a) ∧ divE mul inv a 0 = .error .divZero ∧
      powE mul a 0 = 1 ∧ ∀ n, powE mul a (n + 1) = mul (powE mul a n) a

/-- The carry-less product (R100) on all naturals: it is commutative, zero and one behave, a power of two shifts, it is the
exclusive or of the shifted copies that the set bits select, and the lengths of nonzero factors add. -/
def Obligations.ClmulLaws : Prop :=
  ∀ a b : Nat, clmul a b = clmul b a ∧ clmul a 0 = 0 ∧ clmul 0 b = 0 ∧ clmul a 1 = a ∧
    (∀ k, clmul (1 <<< k) b = b <<< k) ∧
    clmul (2 * a) b = clmul a b <<< 1 ∧ clmul (2 * a + 1) b = clmul a b <<< 1 ^^^ b ∧
    (a ≠ 0 → b ≠ 0 → bitlen (clmul a b) = bitlen a + bitlen b - 1)

/-- Polynomial division (R103) on all naturals: the quotient `q` of `n` by a nonzero `d` leaves a remainder shorter than `d`;
its length; and the three special quotients. -/
def Obligations.PdivIsEuclideanDivision : Prop :=
  ∀ n d : Nat, d ≠ 0 → ∃ q, pdiv n d = .ok q ∧ bitlen (n ^^^ clmul q d) < bitlen d ∧
    (bitlen d ≤ bitlen n → bitlen q = bitlen n - bitlen d + 1) ∧ (bitlen n < bitlen d → q = 0) ∧
    (n < 2 ^ 32 → q < 2 ^ 32) ∧ pdiv n 1 = .ok n ∧ pdiv d d = .ok 1 ∧ pdiv 0 d = .ok 0

/-- The inverter's loop (R111, R112) for every nonzero element: its variables never exceed 0x11B; it ends with remainder 0,
gcd 1, `t` = 0x11B and a coefficient below 256, after 1 to `bitlen a` iterations, each of which shortens `r`; and inverting twice gives `a` back. -/
def Obligations.InverterLoopEndsWithGcdOne : Prop :=
  (∀ a < 256, a ≠ 0 →
    (∀ k ≤ 8, ∀ e, e = euclidLoop k { oldR := 0x11B, r := a, oldT := 0, t := 1, iters := 0 } →
      e.oldR ≤ 0x11B ∧ e.r ≤ 0x11B ∧ e.oldT ≤ 0x11B ∧ e.t ≤ 0x11B ∧
      (e.r ≠ 0 → polyQuotient e.oldR e.r ≤ 0x11B ∧ bitlen (euclidStep e).r < bitlen e.r)) ∧
    (euclidOf a).r = 0 ∧ (euclidOf a).oldR = 1 ∧ (euclidOf a).oldT < 256 ∧ (euclidOf a).t = 0x11B ∧
    1 ≤ (euclidOf a).iters ∧ (euclidOf a).iters ≤ bitlen a ∧
    ∃ i, invD a = .ok i ∧ mulD a i = 1 ∧ invD i = .ok a) ∧
  [1, 2, 3, 4, 5, 6, 7, 8].map (fun n => ((List.range 256).filter fun a => a ≠ 0 ∧ (euclidOf a).iters = n).length) =
    [1, 10, 44, 78, 68, 34, 18, 2] ∧
  (euclidOf 0x01).iters = 1 ∧ (euclidOf 0xC4).iters = 8 ∧ (euclidOf 0xDA).iters = 8
end

