-- ==== Sys2Proof/Laws/Field.lean ====
section
/-! SUPPORT. First lemmas of the engines' functions: lengths, the loops one iteration at a time, and the zero tests. -/

namespace Sys2Proof.Machine

@[simp] theorem bitlen_zero : bitlen 0 = 0 := rfl

theorem bitlen_of_ne_zero {v : Nat} (h : v ≠ 0) : bitlen v = Nat.log2 v + 1 := by
  have : Nat.beq v 0 = false := Bool.eq_false_iff.mpr fun hb => h (Nat.eq_of_beq_eq_true hb)
  simp [bitlen, this]

/-- The length of a value bounds it. -/
theorem lt_two_pow_bitlen (v : Nat) : v < 2 ^ bitlen v := by
  by_cases h : v = 0
  · simp [h]
  · rw [bitlen_of_ne_zero h]; exact Nat.lt_log2_self

/-- The length is the least bound. -/
theorem bitlen_le_iff (v k : Nat) : bitlen v ≤ k ↔ v < 2 ^ k := by
  by_cases h : v = 0
  · simp [h]
  · rw [bitlen_of_ne_zero h, Nat.succ_le_iff, Nat.log2_lt h]

@[simp] theorem clmul_zero_left (b : Nat) : clmul 0 b = 0 := rfl

theorem pdiv_of_ne_zero (n : Nat) {d : Nat} (h : d ≠ 0) : pdiv n d = .ok (polyQuotient n d) := if_neg h
@[simp] theorem pdiv_zero (n : Nat) : pdiv n 0 = .error .divZero := rfl

theorem mulLoop_succ (k a b p : Nat) :
    mulLoop (k + 1) a b p = mulLoop k (a >>> 1) (doubleReduce b) (bif a.testBit 0 then p ^^^ b else p) := rfl

@[simp] theorem invD_zero : invD 0 = .error .divZero := rfl

theorem divE_zero (mul : Nat → Nat → Nat) (inv : Nat → Except Err Nat) (a : Nat) : divE mul inv a 0 = .error .divZero := rfl

theorem divE_ok {mul : Nat → Nat → Nat} {inv : Nat → Except Err Nat} {b i : Nat} (hb : b ≠ 0) (hi : inv b = .ok i) (a : Nat) :
    divE mul inv a b = .ok (mul a i) := by simp [divE, hb, hi, Except.map]

@[simp] theorem powE_zero (mul : Nat → Nat → Nat) (a : Nat) : powE mul a 0 = 1 := rfl
theorem powE_succ (mul : Nat → Nat → Nat) (a e : Nat) : powE mul a (e + 1) = mul (powE mul a e) a := rfl

@[simp] theorem mulT_zero_left (s : State) (b : Nat) : mulT s 0 b = 0 := by simp [mulT]
@[simp] theorem mulT_zero_right (s : State) (a : Nat) : mulT s a 0 = 0 := by simp [mulT]

theorem mulT_of_ne_zero (s : State) {a b : Nat} (ha : a ≠ 0) (hb : b ≠ 0) :
    mulT s a b = (s.expEntry (((s.logEntry (a - 1)).toNat + (s.logEntry (b - 1)).toNat) % 255)).toNat := by
  simp [mulT, ha, hb, Config.order]

@[simp] theorem invT_zero (s : State) : invT s 0 = .error .divZero := rfl

theorem invT_of_ne_zero (s : State) {a : Nat} (ha : a ≠ 0) :
    invT s a = .ok (s.expEntry ((255 - (s.logEntry (a - 1)).toNat) % 255)).toNat := by
  simp [invT, ha, Config.order]

theorem generatorValues_length (k e : Nat) : (generatorValues k e).length = k := by
  induction k generalizing e with
  | zero => rfl
  | succ k ih => simp [generatorValues, ih]

end Sys2Proof.Machine
end

