-- ==== Sys2Proof/Laws/Memory.lean ====
section
/-! SUPPORT. The table memories: a read after a write, the canonical form and that every operation keeps it, and that canonical
memories with equal entries are equal. -/

namespace Sys2Proof.Machine.Memory

theorem beq_decide (i j : Nat) : Nat.beq i j = decide (i = j) := by
  rw [Bool.eq_iff_iff]; simp [Nat.beq_eq]

theorem blt_decide (i j : Nat) : Nat.blt i j = decide (i < j) := by
  rw [Bool.eq_iff_iff]; simp [Nat.blt_eq]

@[simp] theorem read?_nil (i : Nat) : read? [] i = none := rfl

theorem read?_cons (c : Host.Cell) (m : Memory) (i : Nat) :
    read? (c :: m) i = if i = c.1 then some c.2 else read? m i := by
  simp only [read?, beq_decide]
  by_cases h : i = c.1 <;> simp [h]

theorem write_cons (c : Host.Cell) (m : Memory) (i : Nat) (v : Byte) :
    write (c :: m) i v = if i < c.1 then (i, v) :: c :: m else if i = c.1 then (i, v) :: m else c :: write m i v := by
  simp only [write, beq_decide, blt_decide]
  by_cases h : i < c.1
  · simp [h]
  · by_cases e : i = c.1 <;> simp [h, e]

theorem wfFrom_cons (lo : Nat) (c : Host.Cell) (m : Memory) :
    wfFrom lo (c :: m) = true ↔ lo ≤ c.1 ∧ wfFrom (c.1 + 1) m = true := by
  simp [wfFrom]

theorem wfFrom_mono {lo lo' : Nat} (h : lo' ≤ lo) : ∀ {m : Memory}, wfFrom lo m = true → wfFrom lo' m = true
  | [], _ => rfl
  | c :: m, hm => by
    rw [wfFrom_cons] at hm ⊢
    exact ⟨by omega, hm.2⟩

/-- An index below the canonical form's start is not listed. -/
theorem read?_below {i lo : Nat} (h : i < lo) : ∀ {m : Memory}, wfFrom lo m = true → read? m i = none
  | [], _ => rfl
  | c :: m, hm => by
    rw [wfFrom_cons] at hm
    rw [read?_cons, if_neg (by omega)]
    exact read?_below (lo := c.1 + 1) (by omega) hm.2

/-- A read of the index just written gives the byte written. -/
@[simp] theorem read?_write_same (m : Memory) (i : Nat) (v : Byte) : read? (write m i v) i = some v := by
  induction m with
  | nil => simp [write, read?_cons]
  | cons c m ih =>
    rw [write_cons]
    split
    · simp [read?_cons]
    · split
      · simp [read?_cons]
      · rw [read?_cons, if_neg ‹_›, ih]

/-- A write leaves every other index alone. -/
theorem read?_write_other (m : Memory) {i j : Nat} (v : Byte) (h : j ≠ i) : read? (write m i v) j = read? m j := by
  induction m with
  | nil => simp [write, read?_cons, h]
  | cons c m ih =>
    rw [write_cons]
    split
    · rw [read?_cons, if_neg h]
    · split
      · next e => rw [read?_cons, read?_cons, if_neg h, if_neg (e ▸ h)]
      · rw [read?_cons, read?_cons, ih]

theorem wfFrom_write (v : Byte) {i : Nat} : ∀ {m : Memory} {lo : Nat}, lo ≤ i → wfFrom lo m = true →
    wfFrom lo (write m i v) = true
  | [], lo, h, _ => by simp [write, wfFrom, h]
  | c :: m, lo, h, hm => by
    rw [wfFrom_cons] at hm
    rw [write_cons]
    split
    · rw [wfFrom_cons, wfFrom_cons]
      exact ⟨h, by simp only; omega, hm.2⟩
    · split
      · next e => rw [wfFrom_cons]; exact ⟨h, by simpa [e] using hm.2⟩
      · rw [wfFrom_cons]; exact ⟨hm.1, wfFrom_write v (by omega) hm.2⟩

theorem all_write (p : Host.Cell → Bool) (m : Memory) (i : Nat) (v : Byte) (hm : m.all p = true) (hp : p (i, v) = true) :
    (write m i v).all p = true := by
  induction m with
  | nil => simpa [write] using hp
  | cons c m ih =>
    simp only [List.all_cons, Bool.and_eq_true] at hm
    rw [write_cons]
    split
    · simp [hp, hm.1, hm.2]
    · split
      · simp [hp, hm.2]
      · simp [hm.1, ih hm.2]

/-- Writing an entry of the table keeps the canonical form. -/
theorem wf_write {m : Memory} (hm : wf m = true) {i : Nat} (hi : i < Config.tableLen) (v : Byte) :
    wf (write m i v) = true := by
  simp only [wf, Bool.and_eq_true] at hm ⊢
  exact ⟨wfFrom_write v (Nat.zero_le i) hm.1, all_write _ m i v hm.2 (by simpa using hi)⟩

theorem wfFrom_ofValues : ∀ (vs : List Nat) (i : Nat), wfFrom i (ofValues i vs) = true
  | [], _ => rfl
  | v :: vs, i => by
    rw [ofValues, wfFrom_cons]
    exact ⟨le_refl i, wfFrom_ofValues vs (i + 1)⟩

theorem all_lt_ofValues : ∀ (vs : List Nat) (i n : Nat), i + vs.length ≤ n →
    (ofValues i vs).all (fun c => Nat.blt c.1 n) = true
  | [], _, _, _ => rfl
  | v :: vs, i, n, h => by
    simp only [List.length_cons] at h
    simp only [ofValues, List.all_cons, Bool.and_eq_true, Nat.blt_eq]
    exact ⟨by omega, all_lt_ofValues vs (i + 1) n (by omega)⟩

/-- The cells of at most 255 values from index 0 on are a canonical table memory. -/
theorem wf_ofValues (vs : List Nat) (h : vs.length ≤ Config.tableLen) : wf (ofValues 0 vs) = true := by
  simp only [wf, Bool.and_eq_true]
  exact ⟨wfFrom_ofValues vs 0, all_lt_ofValues vs 0 _ (by omega)⟩

/-- The entry of consecutive values. -/
theorem read?_ofValues : ∀ (vs : List Nat) (i k : Nat) (h : k < vs.length),
    read? (ofValues i vs) (i + k) = some (BitVec.ofNat 8 vs[k])
  | v :: vs, i, 0, _ => by simp [ofValues, read?_cons]
  | v :: vs, i, k + 1, h => by
    simp only [List.length_cons] at h
    rw [ofValues, read?_cons, if_neg (by simp only; omega), show i + (k + 1) = (i + 1) + k by omega,
      read?_ofValues vs (i + 1) k (by omega)]
    simp

/-- Canonical memories that list the same entries are the same data. -/
theorem ext_of_wfFrom : ∀ {m m' : Memory} {lo : Nat}, wfFrom lo m = true → wfFrom lo m' = true →
    (∀ i, read? m i = read? m' i) → m = m'
  | [], [], _, _, _, _ => rfl
  | [], c :: m', _, _, _, h => by simpa [read?_cons] using h c.1
  | c :: m, [], _, _, _, h => by simpa [read?_cons] using h c.1
  | c :: m, c' :: m', lo, hm, hm', h => by
    rw [wfFrom_cons] at hm hm'
    have h1 := h c.1
    have h2 := h c'.1
    rw [read?_cons, if_pos rfl, read?_cons] at h1
    rw [read?_cons, read?_cons, if_pos rfl] at h2
    have hc : c.1 = c'.1 := by
      by_contra hne
      rcases Nat.lt_or_gt_of_ne hne with hlt | hgt
      · rw [if_neg hne, read?_below (lo := c'.1 + 1) (by omega) hm'.2] at h1; cases h1
      · rw [if_neg (Ne.symm hne), read?_below (lo := c.1 + 1) (by omega) hm.2] at h2; cases h2
    rw [if_pos hc] at h1
    have hcell : c = c' := Prod.ext hc (Option.some.inj h1)
    subst hcell
    rw [ext_of_wfFrom hm.2 hm'.2 fun i => ?_]
    by_cases hi : i = c.1
    · rw [hi, read?_below (lo := c.1 + 1) (by omega) hm.2, read?_below (lo := c.1 + 1) (by omega) hm'.2]
    · simpa [read?_cons, hi] using h i

/-- Equal canonical memories are equal data. -/
theorem ext {m m' : Memory} (hm : wf m = true) (hm' : wf m' = true) (h : ∀ i, read? m i = read? m' i) : m = m' := by
  simp only [wf, Bool.and_eq_true] at hm hm'
  exact ext_of_wfFrom hm.1 hm'.1 h

end Sys2Proof.Machine.Memory
end

