-- ==== Sys2Proof/Laws/Generator.lean ====
section
/-! SUPPORT. The generator's tables are canonical table memories. -/

namespace Sys2Proof.Machine

/-- EXP, as the generator leaves it, is canonical. -/
theorem generatedExp_wf : Memory.wf generatedExp = true := by
  rw [generatedExp]
  exact Memory.wf_ofValues _ (by rw [generatorValues_length])

/-- The generator's LOG writes keep the canonical form when the values it writes at are elements. -/
theorem logWrites_wf : ∀ (vs : List Nat) (i : Nat) (m : Memory), (∀ v ∈ vs, v < 256) → Memory.wf m = true →
    Memory.wf (logWrites i vs m) = true
  | [], _, _, _, hm => hm
  | v :: vs, i, m, h, hm =>
    logWrites_wf vs (i + 1) _ (fun x hx => h x (List.mem_cons_of_mem v hx))
      (Memory.wf_write hm (by have := h v (List.mem_cons_self); simp only [Config.tableLen]; omega) _)

theorem doubleReduce_lt : ∀ b < 256, doubleReduce b < 256 := by decide +kernel

theorem xor_lt_256 {a b : Nat} (ha : a < 256) (hb : b < 256) : a ^^^ b < 256 := Nat.xor_lt_two_pow (n := 8) ha hb

theorem mulLoop_lt : ∀ (k a b p : Nat), b < 256 → p < 256 → mulLoop k a b p < 256
  | 0, _, _, _, _, hp => hp
  | k + 1, a, b, p, hb, hp => by
    refine mulLoop_lt k _ _ _ (doubleReduce_lt b hb) ?_
    cases a.testBit 0
    · exact hp
    · exact xor_lt_256 hp hb

/-- A value times `GEN` is an element. -/
theorem mulD_gen_lt (e : Nat) : mulD e Config.gen < 256 :=
  mulLoop_lt Config.mulIters e Config.gen 0 (by norm_num) (by norm_num)

theorem generatorValues_lt : ∀ (k e : Nat), e < 256 → ∀ v ∈ generatorValues k e, v < 256
  | k + 1, e, he, v, hv => by
    rcases List.mem_cons.mp hv with rfl | hv
    · exact he
    · exact generatorValues_lt k _ (mulD_gen_lt e) v hv

theorem generatedLog_eq (n : Nat) (h : n = Config.tableLen) : generatedLog = logWrites 0 (generatorValues n 1) [] := by
  delta generatedLog
  rw [h]

/-- LOG, as the generator leaves it, is canonical. -/
theorem generatedLog_wf : Memory.wf generatedLog = true := by
  obtain ⟨n, h⟩ : ∃ n, n = Config.tableLen := ⟨_, rfl⟩
  rw [generatedLog_eq n h]
  exact logWrites_wf _ 0 [] (generatorValues_lt n 1 (by norm_num)) rfl

end Sys2Proof.Machine
end

