-- ==== Sys2Proof/Laws/State.lean ====
section
/-! SUPPORT. One lemma for each field of State under each update, true by rfl, so that no proof unfolds an update. -/

namespace Sys2Proof.Machine

variable (s : State)

@[simp] theorem State.complete_opa (v : Word) : (s.complete v).opa = s.opa := rfl
@[simp] theorem State.complete_opb (v : Word) : (s.complete v).opb = s.opb := rfl
@[simp] theorem State.complete_res (v : Word) : (s.complete v).res = v := rfl
@[simp] theorem State.complete_ready (v : Word) : (s.complete v).ready = s.ready := rfl
@[simp] theorem State.complete_ecode (v : Word) : (s.complete v).ecode = 0 := rfl
@[simp] theorem State.complete_exp (v : Word) : (s.complete v).exp = s.exp := rfl
@[simp] theorem State.complete_log (v : Word) : (s.complete v).log = s.log := rfl
@[simp] theorem State.complete_config (v : Word) : (s.complete v).config = s.config := rfl
@[simp] theorem State.complete_port (v : Word) : (s.complete v).port = s.port := rfl
@[simp] theorem State.complete_rdata (v : Word) : (s.complete v).rdata = s.rdata := rfl
@[simp] theorem State.complete_tableEpoch (v : Word) : (s.complete v).tableEpoch = s.tableEpoch := rfl

@[simp] theorem State.raise_opa (e : Err) : (s.raise e).opa = s.opa := rfl
@[simp] theorem State.raise_opb (e : Err) : (s.raise e).opb = s.opb := rfl
@[simp] theorem State.raise_res (e : Err) : (s.raise e).res = s.res := rfl
@[simp] theorem State.raise_ready (e : Err) : (s.raise e).ready = s.ready := rfl
@[simp] theorem State.raise_ecode (e : Err) : (s.raise e).ecode = e.code := rfl
@[simp] theorem State.raise_exp (e : Err) : (s.raise e).exp = s.exp := rfl
@[simp] theorem State.raise_log (e : Err) : (s.raise e).log = s.log := rfl
@[simp] theorem State.raise_config (e : Err) : (s.raise e).config = s.config := rfl
@[simp] theorem State.raise_port (e : Err) : (s.raise e).port = s.port := rfl
@[simp] theorem State.raise_rdata (e : Err) : (s.raise e).rdata = s.rdata := rfl
@[simp] theorem State.raise_tableEpoch (e : Err) : (s.raise e).tableEpoch = s.tableEpoch := rfl

@[simp] theorem State.popped_opa (rest : List PortEvent) : (s.popped rest).opa = s.opa := rfl
@[simp] theorem State.popped_opb (rest : List PortEvent) : (s.popped rest).opb = s.opb := rfl
@[simp] theorem State.popped_res (rest : List PortEvent) : (s.popped rest).res = s.res := rfl
@[simp] theorem State.popped_ready (rest : List PortEvent) : (s.popped rest).ready = s.ready := rfl
@[simp] theorem State.popped_ecode (rest : List PortEvent) : (s.popped rest).ecode = s.ecode := rfl
@[simp] theorem State.popped_exp (rest : List PortEvent) : (s.popped rest).exp = s.exp := rfl
@[simp] theorem State.popped_log (rest : List PortEvent) : (s.popped rest).log = s.log := rfl
@[simp] theorem State.popped_config (rest : List PortEvent) : (s.popped rest).config = s.config := rfl
@[simp] theorem State.popped_port (rest : List PortEvent) : (s.popped rest).port = rest := rfl
@[simp] theorem State.popped_rdata (rest : List PortEvent) : (s.popped rest).rdata = none := rfl
@[simp] theorem State.popped_tableEpoch (rest : List PortEvent) : (s.popped rest).tableEpoch = s.tableEpoch := rfl

@[simp] theorem State.generate_opa : s.generate.opa = s.opa := rfl
@[simp] theorem State.generate_opb : s.generate.opb = s.opb := rfl
@[simp] theorem State.generate_res : s.generate.res = s.res := rfl
@[simp] theorem State.generate_ready : s.generate.ready = true := rfl
@[simp] theorem State.generate_ecode : s.generate.ecode = s.ecode := rfl
@[simp] theorem State.generate_exp : s.generate.exp = generatedExp := rfl
@[simp] theorem State.generate_log : s.generate.log = generatedLog := rfl
@[simp] theorem State.generate_config : s.generate.config = s.config := rfl
@[simp] theorem State.generate_port : s.generate.port = s.port := rfl
@[simp] theorem State.generate_rdata : s.generate.rdata = s.rdata := rfl
@[simp] theorem State.generate_tableEpoch : s.generate.tableEpoch = s.tableEpoch := rfl

@[simp] theorem State.resetEvent_opa : s.resetEvent.opa = 0 := rfl
@[simp] theorem State.resetEvent_opb : s.resetEvent.opb = 0 := rfl
@[simp] theorem State.resetEvent_res : s.resetEvent.res = 0 := rfl
@[simp] theorem State.resetEvent_ready : s.resetEvent.ready = false := rfl
@[simp] theorem State.resetEvent_ecode : s.resetEvent.ecode = 0 := rfl
@[simp] theorem State.resetEvent_exp : s.resetEvent.exp = [] := rfl
@[simp] theorem State.resetEvent_log : s.resetEvent.log = [] := rfl
@[simp] theorem State.resetEvent_config : s.resetEvent.config = s.config := rfl
@[simp] theorem State.resetEvent_port : s.resetEvent.port = s.port := rfl
@[simp] theorem State.resetEvent_rdata : s.resetEvent.rdata = none := rfl
@[simp] theorem State.resetEvent_tableEpoch : s.resetEvent.tableEpoch = s.tableEpoch + 1 := rfl

@[simp] theorem State.settle_opa (r : Except Err Word) : (s.settle r).opa = s.opa := by cases r <;> rfl
@[simp] theorem State.settle_opb (r : Except Err Word) : (s.settle r).opb = s.opb := by cases r <;> rfl
@[simp] theorem State.settle_ready (r : Except Err Word) : (s.settle r).ready = s.ready := by cases r <;> rfl
@[simp] theorem State.settle_exp (r : Except Err Word) : (s.settle r).exp = s.exp := by cases r <;> rfl
@[simp] theorem State.settle_log (r : Except Err Word) : (s.settle r).log = s.log := by cases r <;> rfl
@[simp] theorem State.settle_config (r : Except Err Word) : (s.settle r).config = s.config := by cases r <;> rfl
@[simp] theorem State.settle_port (r : Except Err Word) : (s.settle r).port = s.port := by cases r <;> rfl
@[simp] theorem State.settle_rdata (r : Except Err Word) : (s.settle r).rdata = s.rdata := by cases r <;> rfl
@[simp] theorem State.settle_tableEpoch (r : Except Err Word) : (s.settle r).tableEpoch = s.tableEpoch := by cases r <;> rfl

@[simp] theorem State.settle_ok (v : Word) : s.settle (.ok v) = s.complete v := rfl
@[simp] theorem State.settle_error (e : Err) : s.settle (.error e) = s.raise e := rfl

@[simp] theorem State.complete_expEntry (v : Word) (i : Nat) : (s.complete v).expEntry i = s.expEntry i := rfl
@[simp] theorem State.complete_logEntry (v : Word) (i : Nat) : (s.complete v).logEntry i = s.logEntry i := rfl
@[simp] theorem State.raise_expEntry (e : Err) (i : Nat) : (s.raise e).expEntry i = s.expEntry i := rfl
@[simp] theorem State.raise_logEntry (e : Err) (i : Nat) : (s.raise e).logEntry i = s.logEntry i := rfl
@[simp] theorem State.popped_expEntry (rest : List PortEvent) (i : Nat) : (s.popped rest).expEntry i = s.expEntry i := rfl
@[simp] theorem State.popped_logEntry (rest : List PortEvent) (i : Nat) : (s.popped rest).logEntry i = s.logEntry i := rfl

@[simp] theorem State.generate_expEntry (i : Nat) :
    s.generate.expEntry i = (Memory.read? generatedExp i).getD (Config.unwrittenExp s.tableEpoch i) := rfl
@[simp] theorem State.generate_logEntry (i : Nat) :
    s.generate.logEntry i = (Memory.read? generatedLog i).getD (Config.unwrittenLog s.tableEpoch i) := rfl
@[simp] theorem State.resetEvent_expEntry (i : Nat) :
    s.resetEvent.expEntry i = Config.unwrittenExp (s.tableEpoch + 1) i := rfl
@[simp] theorem State.resetEvent_logEntry (i : Nat) :
    s.resetEvent.logEntry i = Config.unwrittenLog (s.tableEpoch + 1) i := rfl

end Sys2Proof.Machine
end

