-- ==== Sys2Proof/Laws/Ops.lean ====
section
/-! SUPPORT. What the operands and the end of a command can do, said once: callers cite these and do not unfold them. -/

namespace Sys2Proof.Machine

@[simp] theorem elem_of_lt {r : Word} (h : r.toNat < 256) : elem r = .ok r.toNat := if_pos h
@[simp] theorem elem_of_not_lt {r : Word} (h : ¬r.toNat < 256) : elem r = .error .range := if_neg h
@[simp] theorem poly16_of_lt {r : Word} (h : r.toNat < 65536) : poly16 r = .ok r.toNat := if_pos h
@[simp] theorem poly16_of_not_lt {r : Word} (h : ¬r.toNat < 65536) : poly16 r = .error .range := if_neg h
@[simp] theorem poly32_eq (r : Word) : poly32 r = .ok r.toNat := rfl

theorem index_of_mem {r : Word} {lo hi : Nat} (h : lo ≤ r.toNat ∧ r.toNat ≤ hi) : index r lo hi = .ok r.toNat := if_pos h
theorem index_of_not_mem {r : Word} {lo hi : Nat} (h : ¬(lo ≤ r.toNat ∧ r.toNat ≤ hi)) :
    index r lo hi = .error .range := if_neg h

/-- An element operand is the register's value and below 256, or RANGE. -/
theorem elem_cases (r : Word) : (r.toNat < 256 ∧ elem r = .ok r.toNat) ∨ (¬r.toNat < 256 ∧ elem r = .error .range) := by
  by_cases h : r.toNat < 256
  · exact .inl ⟨h, elem_of_lt h⟩
  · exact .inr ⟨h, elem_of_not_lt h⟩

@[simp] theorem elem_zero : elem 0 = .ok 0 := rfl

@[simp] theorem map_toResult_ok (v : Nat) : (Except.ok v : Except Err Nat).map toResult = .ok (toResult v) := rfl
@[simp] theorem map_toResult_error (e : Err) : (Except.error e : Except Err Nat).map toResult = .error e := rfl

/-- A register's value is its own result, and a table entry's result is its zero extension. -/
@[simp] theorem toResult_word (w : Word) : toResult w.toNat = w := by simp [toResult]
@[simp] theorem toResult_byte (b : Byte) : toResult b.toNat = b.setWidth 32 := by
  apply BitVec.eq_of_toNat_eq
  simp [toResult]

@[simp] theorem withTwo_ok (x y : Nat) (f : Nat → Nat → Except Err Nat) :
    withTwo (.ok x) (.ok y) f = (f x y).map toResult := rfl
@[simp] theorem withTwo_error_left (e : Err) (b : Except Err Nat) (f : Nat → Nat → Except Err Nat) :
    withTwo (.error e) b f = .error e := by cases b <;> rfl
@[simp] theorem withTwo_error_right (x : Nat) (e : Err) (f : Nat → Nat → Except Err Nat) :
    withTwo (.ok x) (.error e) f = .error e := rfl
@[simp] theorem withOne_ok (x : Nat) (f : Nat → Except Err Nat) : withOne (.ok x) f = (f x).map toResult := rfl
@[simp] theorem withOne_error (e : Err) (f : Nat → Except Err Nat) : withOne (.error e) f = .error e := rfl

/-- Two element operands, one of which is none: RANGE. -/
theorem withTwo_elem_range {a b : Word} (h : ¬(a.toNat < 256 ∧ b.toNat < 256)) (f : Nat → Nat → Except Err Nat) :
    withTwo (elem a) (elem b) f = .error .range := by
  rcases elem_cases a with ⟨ha, ea⟩ | ⟨_, ea⟩ <;> rcases elem_cases b with ⟨hb, eb⟩ | ⟨_, eb⟩ <;> rw [ea, eb]
  · exact absurd ⟨ha, hb⟩ h
  · rfl
  · rfl
  · rfl

theorem runCommand_notReady {s : State} (h : s.ready = false) (r : Except Err Word) :
    runCommand s r = .next (s.raise .notReady) := by simp [runCommand, h]

theorem runCommand_ready {s : State} (h : s.ready = true) (r : Except Err Word) :
    runCommand s r = .next (s.settle r) := by simp [runCommand, h]

theorem runCommand_ok {s : State} (h : s.ready = true) (v : Word) :
    runCommand s (.ok v) = .next { s with res := v, ecode := 0 } := runCommand_ready h _

theorem runCommand_error {s : State} (h : s.ready = true) (e : Err) :
    runCommand s (.error e) = .next { s with ecode := e.code } := runCommand_ready h _

/-- Everything the end of a command can do: NOT_READY, or its result, or its error. -/
theorem runCommand_cases {s t : State} {r : Except Err Word} (h : runCommand s r = .next t) :
    (s.ready = false ∧ t = s.raise .notReady) ∨
    (s.ready = true ∧ ∃ v, r = .ok v ∧ t = s.complete v) ∨
    (s.ready = true ∧ ∃ e, r = .error e ∧ t = s.raise e) := by
  cases hr : s.ready with
  | false => rw [runCommand_notReady hr] at h; exact .inl ⟨rfl, by cases h; rfl⟩
  | true =>
    rw [runCommand_ready hr] at h
    cases r with
    | ok v => exact .inr (.inl ⟨rfl, v, rfl, by cases h; rfl⟩)
    | error e => exact .inr (.inr ⟨rfl, e, rfl, by cases h; rfl⟩)

/-- Every command is `runCommand` of some outcome. -/
theorem exec_eq_runCommand (i : Instr) (s : State) : ∃ r, exec i s = runCommand s r := by
  cases i <;> exact ⟨_, rfl⟩

/-- Everything a command can do to the state: write RES and clear ECODE, or write an error code. -/
theorem exec_cases {i : Instr} {s t : State} (h : exec i s = .next t) :
    (∃ v, t = s.complete v) ∨ ∃ e, t = s.raise e := by
  obtain ⟨r, hr⟩ := exec_eq_runCommand i s
  rw [hr] at h
  rcases runCommand_cases h with ⟨_, ht⟩ | ⟨_, v, _, ht⟩ | ⟨_, e, _, ht⟩
  · exact .inr ⟨_, ht⟩
  · exact .inl ⟨v, ht⟩
  · exact .inr ⟨e, ht⟩

/-- The code of an error is from 1 to 5. -/
theorem Err.code_range (e : Err) : 1 ≤ e.code.toNat ∧ e.code.toNat ≤ 5 := by cases e <;> decide

end Sys2Proof.Machine
end

