-- ==== Sys2Proof/Laws/PerInstr.lean ====
section
/-! SUPPORT. Per-instruction families. RoundTrip: a command is well formed, its word is a well-formed word of the one format, and
decoding that word gives the command. -/

namespace Sys2Proof.Laws.RoundTrip

/-- The command's word is well formed and decodes to the command. -/
def Statement (i : Instr) : Prop := i.wf = true ∧ wordWf (encode i) = true ∧ (decode (encode i)).toOption = some i

theorem add : Statement .add := ⟨rfl, by decide, by decide⟩
theorem sub : Statement .sub := ⟨rfl, by decide, by decide⟩
theorem clmul : Statement .clmul := ⟨rfl, by decide, by decide⟩
theorem pdiv : Statement .pdiv := ⟨rfl, by decide, by decide⟩
theorem rdexp : Statement .rdexp := ⟨rfl, by decide, by decide⟩
theorem rdlog : Statement .rdlog := ⟨rfl, by decide, by decide⟩
theorem mulD : Statement .mulD := ⟨rfl, by decide, by decide⟩
theorem invD : Statement .invD := ⟨rfl, by decide, by decide⟩
theorem divD : Statement .divD := ⟨rfl, by decide, by decide⟩
theorem powD : Statement .powD := ⟨rfl, by decide, by decide⟩
theorem mulT : Statement .mulT := ⟨rfl, by decide, by decide⟩
theorem invT : Statement .invT := ⟨rfl, by decide, by decide⟩
theorem divT : Statement .divT := ⟨rfl, by decide, by decide⟩
theorem powT : Statement .powT := ⟨rfl, by decide, by decide⟩

end Sys2Proof.Laws.RoundTrip
end

