-- ==== Sys2Proof/Laws/Port.lean ====
section
/-! SUPPORT. The host port and the step: which accesses have a step, what an access does, and every way a step can answer a
next state, so that an invariant is a short case analysis. -/

namespace Sys2Proof.Machine

/-- A legal base is a multiple of the window size. -/
theorem Config.base_mod {c : Config} (h : c.wf = true) : c.gfBase % 32 = 0 := by
  simpa [Config.wf, Config.window] using h

theorem inWindow_iff (c : Config) (addr : Nat) : inWindow c addr = true ↔ c.gfBase ≤ addr ∧ addr < c.gfBase + 32 := by
  simp [inWindow, Config.window]

theorem refusalOf_outside {c : Config} {addr : Nat} (h : ¬(c.gfBase ≤ addr ∧ addr < c.gfBase + 32)) (width : Nat) :
    refusalOf c addr width = some .outsideWindow := by
  rw [refusalOf, if_pos]
  exact Bool.eq_false_iff.mpr fun hw => h ((inWindow_iff c addr).mp hw)

/-- An access has a step exactly when it is in the window, four bytes wide and aligned. -/
theorem refusalOf_none_iff (c : Config) (addr width : Nat) :
    refusalOf c addr width = none ↔ (c.gfBase ≤ addr ∧ addr < c.gfBase + 32) ∧ width = 4 ∧ addr % 4 = 0 := by
  rw [← inWindow_iff, refusalOf]
  cases inWindow c addr <;> by_cases hw : width = 4 <;> by_cases ha : addr % 4 = 0 <;>
    simp [Config.accessBytes, hw, ha]

/-- Every aligned slot of a legal window is admitted. -/
theorem refusalOf_slot {c : Config} (h : c.wf = true) {off : Nat} (h4 : off % 4 = 0) (hlt : off < 32) :
    refusalOf c (c.gfBase + off) 4 = none := by
  rw [refusalOf_none_iff]
  have := Config.base_mod h
  omega

/-- An admitted access to OPA, OPB or CMD is at that register's address. -/
theorem address_of_slot {c : Config} {addr : Nat} (hc : c.wf = true) (h : refusalOf c addr 4 = none) :
    (slotAt (addr - c.gfBase) = .opa → addr = c.gfBase + 0x00) ∧
    (slotAt (addr - c.gfBase) = .opb → addr = c.gfBase + 0x04) ∧
    (slotAt (addr - c.gfBase) = .cmd → addr = c.gfBase + 0x08) := by
  rw [refusalOf_none_iff] at h
  have hb := Config.base_mod hc
  obtain ⟨k, rfl⟩ : ∃ k, addr = c.gfBase + 4 * k := ⟨(addr - c.gfBase) / 4, by omega⟩
  have hk : k < 8 := by omega
  rw [show c.gfBase + 4 * k - c.gfBase = 4 * k by omega]
  interval_cases k <;> simp [slotAt, Config.accessBytes]

theorem performAccess_read {s : State} {addr width : Nat} (h : refusalOf s.config addr width = none) :
    performAccess (.read addr width) s = .next { s with rdata := some (s.slotValue (slotAt (addr - s.config.gfBase))) } := by
  simp [performAccess, h]

theorem performAccess_write {s : State} {addr width : Nat} (v : Word) (h : refusalOf s.config addr width = none) :
    performAccess (.write addr width v) s = writeSlot (slotAt (addr - s.config.gfBase)) v s := by
  simp [performAccess, h]

theorem performAccess_refused {s : State} {addr width : Nat} {r : Refusal} (h : refusalOf s.config addr width = some r) :
    performAccess (.read addr width) s = .refused r ∧ ∀ v, performAccess (.write addr width v) s = .refused r := by
  simp [performAccess, h]

/-- A command word always has a next state: a command's, or ILLEGAL. -/
theorem executeCommand_cases {w : Word} {s t : State} (h : executeCommand w s = .next t) :
    (∃ i, decode w = .ok i ∧ exec i s = .next t) ∨ (∃ e, decode w = .error e) ∧ t = s.raise .illegal := by
  unfold executeCommand at h
  split at h
  · exact .inl ⟨_, ‹_›, h⟩
  · exact .inr ⟨⟨_, ‹_›⟩, by cases h; rfl⟩

theorem step_nil {s : State} (h : s.port = []) : step s = idleStep (s.popped []) := by simp [step, h]

theorem step_cons {s : State} {ev : PortEvent} {rest : List PortEvent} (h : s.port = ev :: rest) :
    step s = performEvent ev (s.popped rest) := by simp [step, h]

/-- Everything an admitted access can do: return a slot's value, store an operand, end a command, or nothing. -/
theorem performAccess_cases {a : Access} {s t : State} (h : performAccess a s = .next t) :
    (∃ addr width, a = .read addr width ∧ refusalOf s.config addr width = none ∧
      t = { s with rdata := some (s.slotValue (slotAt (addr - s.config.gfBase))) }) ∨
    (∃ addr width v, a = .write addr width v ∧ refusalOf s.config addr width = none ∧
      ((slotAt (addr - s.config.gfBase) = .opa ∧ t = { s with opa := v }) ∨
       (slotAt (addr - s.config.gfBase) = .opb ∧ t = { s with opb := v }) ∨
       (slotAt (addr - s.config.gfBase) = .cmd ∧ ((∃ x, t = s.complete x) ∨ ∃ e, t = s.raise e)) ∨ t = s)) := by
  cases a with
  | read addr width =>
    cases hr : refusalOf s.config addr width with
    | some r => rw [(performAccess_refused hr).1] at h; cases h
    | none => rw [performAccess_read hr] at h; cases h; exact .inl ⟨_, _, rfl, hr, rfl⟩
  | write addr width v =>
    cases hr : refusalOf s.config addr width with
    | some r => rw [(performAccess_refused hr).2] at h; cases h
    | none =>
      rw [performAccess_write v hr] at h
      refine .inr ⟨_, _, _, rfl, hr, ?_⟩
      cases hs : slotAt (addr - s.config.gfBase) <;> rw [hs] at h <;> simp only [writeSlot] at h
      case opa => cases h; exact .inl ⟨rfl, rfl⟩
      case opb => cases h; exact .inr (.inl ⟨rfl, rfl⟩)
      case cmd =>
        refine .inr (.inr (.inl ⟨rfl, ?_⟩))
        rcases executeCommand_cases h with ⟨i, _, hi⟩ | ⟨_, ht⟩
        · exact exec_cases hi
        · exact .inr ⟨_, ht⟩
      all_goals cases h; exact .inr (.inr (.inr rfl))

/-- Everything a step can do when it answers a next state. -/
theorem step_cases {s t : State} (h : step s = .next t) :
    (s.port = [] ∧ ((s.ready = true ∧ t = s.popped []) ∨ (s.ready = false ∧ t = (s.popped []).generate))) ∨
    ∃ ev rest, s.port = ev :: rest ∧
      ((ev = .gen ∧ s.ready = false ∧ t = (s.popped rest).generate) ∨
       (ev = .reset ∧ t = (s.popped rest).resetEvent) ∨
       ∃ a, ev = .access a ∧ performAccess a (s.popped rest) = .next t) := by
  cases hp : s.port with
  | nil =>
    rw [step_nil hp, idleStep] at h
    refine .inl ⟨rfl, ?_⟩
    cases hr : s.ready <;> simp [hr] at h
    · exact .inr ⟨rfl, h.symm⟩
    · exact .inl ⟨rfl, h.symm⟩
  | cons ev rest =>
    rw [step_cons hp] at h
    refine .inr ⟨ev, rest, rfl, ?_⟩
    cases ev with
    | access a => exact .inr (.inr ⟨a, rfl, h⟩)
    | gen =>
      simp only [performEvent, genStep, State.popped_ready] at h
      cases hr : s.ready <;> simp [hr] at h
      exact .inl ⟨rfl, rfl, h.symm⟩
    | reset => simp only [performEvent] at h; cases h; exact .inr (.inl ⟨rfl, rfl⟩)
    | accessCutByReset a => simp [performEvent] at h

end Sys2Proof.Machine
end

