-- ==== Sys2Proof/Machine/HostProgram.lean ====
section
/-! DEFINITION. The spec's notation around the block, not part of it (30_encoding.md R67): host programs (R68, R69), whose
statements become accesses at the port, and the rendering of a polynomial as terms (00_scope.md R12). -/

namespace Sys2Proof.Machine

/-- A value in a `WR` statement (30_encoding.md R68): a number, a mnemonic standing for its word, a host variable. -/
inductive HostValue where
  | num (v : Word)
  | command (i : Instr)
  | var (x : Nat)
deriving DecidableEq, Repr

/-- Host statements (30_encoding.md R68). Labels are statement indices and host variables are numbered. -/
inductive HostStmt where
  | wr (reg : Slot) (v : HostValue)
  | rd (reg : Slot) (x : Nat)
  | bz (x bit target : Nat)
  | bnz (x bit target : Nat)
  | halt
deriving DecidableEq, Repr

/-- The host's own state: its statement index and its variables, latest setting first (30_encoding.md R68). -/
structure HostState where
  pc : Nat
  vars : List (Nat × Word)
deriving DecidableEq, Repr

/-- The value of a host variable, if an `RD` has set it. -/
def HostState.lookup (h : HostState) (x : Nat) : Option Word := (h.vars.find? fun p => p.1 == x).map Prod.snd

/-- The value a `WR` statement writes. -/
def HostState.value (h : HostState) : HostValue → Option Word
  | .num v => some v
  | .command i => some (encode i)
  | .var x => h.lookup x

/-- The block's side of a statement's access: it comes to the port ahead of whatever else waits there, and is performed. -/
def hostAccess (a : Access) (s : State) : Host.Outcome State Fault Refusal := step { s with port := .access a :: s.port }

/-- The host moves on by `next` when the block's step answers a next state; a stop stays that stop. -/
def hostThen (o : Host.Outcome State Fault Refusal) (next : State → HostState) :
    Host.Outcome (HostState × State) Fault Refusal :=
  match o with
  | .next s => .next (next s, s)
  | .fault f => .fault f
  | .refused r => .refused r

/-- A branch on bit `bit` of a host variable: to `target` when the bit is `want`, else to the next statement. -/
def hostBranch (h : HostState) (s : State) (x bit target : Nat) (want : Bool) :
    Host.Outcome (HostState × State) Fault Refusal :=
  match h.lookup x with
  | some v => .next ({ h with pc := if v.getLsbD bit = want then target else h.pc + 1 }, s)
  | none => .refused .hostVariableUnset

/-- One host statement beside the block (30_encoding.md R68). The program has ended at `HALT` and past its last statement. -/
def hostStep (prog : List HostStmt) (h : HostState) (s : State) : Host.Outcome (HostState × State) Fault Refusal :=
  match prog[h.pc]? with
  | some (.wr reg v) =>
    match h.value v with
    | some w =>
      hostThen (hostAccess (.write (s.config.gfBase + offsetOf reg) Config.accessBytes w) s) fun _ =>
        { h with pc := h.pc + 1 }
    | none => .refused .hostVariableUnset
  | some (.rd reg x) =>
    hostThen (hostAccess (.read (s.config.gfBase + offsetOf reg) Config.accessBytes) s) fun s' =>
      { pc := h.pc + 1, vars := (x, s'.rdata.getD 0) :: h.vars }
  | some (.bz x bit target) => hostBranch h s x bit target false
  | some (.bnz x bit target) => hostBranch h s x bit target true
  | some .halt => .next (h, s)
  | none => .next (h, s)

/-- `WAITREADY` as the statements from index `at0` on, with the fresh variable `x` (30_encoding.md R69). -/
def waitReady (at0 x : Nat) : List HostStmt := [.rd .status x, .bz x 0 at0]

/-- `<M> a, b` for a two-operand mnemonic (30_encoding.md R69). -/
def twoOperand (i : Instr) (a b : HostValue) (st r : Nat) : List HostStmt :=
  [.wr .opa a, .wr .opb b, .wr .cmd (.command i), .rd .status st, .rd .res r]

/-- `<M> a` for a one-operand mnemonic; OPB is not written (30_encoding.md R69). -/
def oneOperand (i : Instr) (a : HostValue) (st r : Nat) : List HostStmt :=
  [.wr .opa a, .wr .cmd (.command i), .rd .status st, .rd .res r]

/-- A term of a rendered polynomial: `x**k` for k at least 2, `x`, or `1` (00_scope.md R12). -/
inductive Term where
  | pow (k : Nat)
  | x
  | one
deriving DecidableEq, Repr

/-- The term of bit `k`. -/
def termOf : Nat → Term
  | 0 => .one
  | 1 => .x
  | k => .pow k

/-- The terms of a value, high degree first, joined by ` + ` in the spec's rendering; no term renders as `0`
(00_scope.md R12, 90_conflicts.md C1: the constant term appears only when bit 0 is set). -/
def polynomialTerms (v : Nat) : List Term := (((List.range (bitlen v)).filter v.testBit).map termOf).reverse

end Sys2Proof.Machine
end

