-- ==== Sys2Proof/Tests/Slice0.lean ====
section
/-! SUPPORT. Tests on fixed values, expected results from 95_test_vectors.md and the rules' own examples, and one witness for each
statement with hypotheses, at boundary values of its clauses. -/

namespace Sys2Proof.Tests

open Sys2Proof.Machine

/-- READY = 1 with the tables the spec lists (42_table_engine.md R134) and the RES of 95_test_vectors.md section 3. -/
def st (opa opb : Word) : State :=
  { State.reset with
    opa := opa
    opb := opb
    res := 0xDEADBEEF
    ready := true
    exp := Memory.ofValues 0 expContents
    log := Memory.ofValues 0 logContents }

/-- Just after reset, with two operands written. -/
def early (opa opb : Word) : State := { State.reset with opa := opa, opb := opb }

/-- The state with events at the port. -/
def at' (s : State) (evs : List PortEvent) : State := { s with port := evs }

/-- RES and ECODE of the next state. -/
def outcome (o : Host.Outcome State Fault Refusal) : Option (Word × BitVec 4) :=
  match o with
  | .next t => some (t.res, t.ecode)
  | .fault _ => none
  | .refused _ => none

/-- The value the port returned, READY and STATUS of the next state. -/
def seen (o : Host.Outcome State Fault Refusal) : Option (Option Word × Word) :=
  match o with
  | .next t => some (t.rdata, t.status)
  | .fault _ => none
  | .refused _ => none

/-- Why there is no next state. -/
def stopped (o : Host.Outcome State Fault Refusal) : Option (Fault ⊕ Refusal) :=
  match o with
  | .next _ => none
  | .fault f => some (.inl f)
  | .refused r => some (.inr r)

/-! ### Well-formedness (30_encoding.md R60) and decoding (R63, R64): words written out bit by bit -/

theorem test_reserved_bit_refused : reservedClear 0x00000110 = false ∧ wordWf 0x00000110 = false := by decide
theorem test_group_bit_refused : groupBitClear 0x00000014 = false ∧ wordWf 0x00000014 = false := by decide
theorem test_every_instr_wf : Instr.wf .powT = true ∧ wordWf 0x0000001B = true := by decide
theorem test_bad_base_refused : Config.wf { gfBase := 0x10, hasAccel := false } = false := by decide
theorem test_falling_memory_refused : Memory.wf [(3, 1), (3, 2)] = false ∧ Memory.wf [(255, 1)] = false := by decide

theorem test_decode_add : (decode 0b00000000000000000000000000000001#32).toOption = some .add := by decide
theorem test_decode_sub : (decode 0b00000000000000000000000000000010#32).toOption = some .sub := by decide
theorem test_decode_clmul : (decode 0b00000000000000000000000000000011#32).toOption = some .clmul := by decide
theorem test_decode_pdiv : (decode 0b00000000000000000000000000000100#32).toOption = some .pdiv := by decide
theorem test_decode_rdexp : (decode 0b00000000000000000000000000000101#32).toOption = some .rdexp := by decide
theorem test_decode_rdlog : (decode 0b00000000000000000000000000000110#32).toOption = some .rdlog := by decide
theorem test_decode_mulD : (decode 0b00000000000000000000000000010000#32).toOption = some .mulD := by decide
theorem test_decode_invD : (decode 0b00000000000000000000000000010001#32).toOption = some .invD := by decide
theorem test_decode_divD : (decode 0b00000000000000000000000000010010#32).toOption = some .divD := by decide
theorem test_decode_powD : (decode 0b00000000000000000000000000010011#32).toOption = some .powD := by decide
theorem test_decode_mulT : (decode 0b00000000000000000000000000011000#32).toOption = some .mulT := by decide
theorem test_decode_invT : (decode 0b00000000000000000000000000011001#32).toOption = some .invT := by decide
theorem test_decode_divT : (decode 0b00000000000000000000000000011010#32).toOption = some .divT := by decide
theorem test_decode_powT : decodeTableWord 32 0b00011011 = some .powT := by decide

/-! ### The commands (95_test_vectors.md section 3) -/

theorem test_add : outcome (exec .add (st 0x57 0x83)) = some (0xD4, 0) := by decide
theorem test_add_range : outcome (exec .add (st 0x01 0xFFFFFFFF)) = some (0xDEADBEEF, 3) := by decide
theorem test_sub : outcome (exec .sub (st 0xD4 0x83)) = some (0x57, 0) := by decide
theorem test_sub_range : outcome (exec .sub (st 0x80000000 0)) = some (0xDEADBEEF, 3) := by decide
theorem test_clmul : outcome (exec .clmul (st 0xFFFF 0xFFFF)) = some (0x55555555, 0) := by decide +kernel
theorem test_clmul_asymmetric : outcome (exec .clmul (st 0x11B 0x3)) = some (0x32D, 0) := by decide +kernel
theorem test_pdiv : outcome (exec .pdiv (st 0x80000000 0x3)) = some (0x7FFFFFFF, 0) := by decide +kernel
theorem test_pdiv_zero : outcome (exec .pdiv (st 0 0)) = some (0xDEADBEEF, 4) := by decide
theorem test_rdexp : outcome (exec .rdexp (st 0xB2 0x100)) = some (0xC1, 0) := by decide +kernel
theorem test_rdexp_range : outcome (exec .rdexp (st 0xFF 0)) = some (0xDEADBEEF, 3) := by decide
theorem test_rdlog : outcome (exec .rdlog (st 0x53 0x100)) = some (0x30, 0) := by decide +kernel
theorem test_rdlog_range : outcome (exec .rdlog (st 0 0)) = some (0xDEADBEEF, 3) := by decide
theorem test_mulD : outcome (exec .mulD (st 0x57 0x83)) = some (0xC1, 0) := by decide +kernel
theorem test_mulD_reduces : outcome (exec .mulD (st 0x57 0x13)) = some (0xFE, 0) := by decide +kernel
theorem test_invD : outcome (exec .invD (st 0xC4 0xFFFFFFFF)) = some (0xDA, 0) := by decide +kernel
theorem test_invD_zero : outcome (exec .invD (st 0 1)) = some (0xDEADBEEF, 4) := by decide
theorem test_divD : outcome (exec .divD (st 0xC1 0x83)) = some (0x57, 0) := by decide +kernel
theorem test_divD_range_first : outcome (exec .divD (st 0x100 0)) = some (0xDEADBEEF, 3) := by decide
theorem test_powD : outcome (exec .powD (st 0x02 0x08)) = some (0x1B, 0) := by decide +kernel
theorem test_powD_empty_product : outcome (exec .powD (st 0 0)) = some (1, 0) := by decide +kernel
theorem test_mulT_wraps : outcome (exec .mulT (st 0x1B 0x10)) = some (0xAB, 0) := by decide +kernel
theorem test_mulT_zero : outcome (exec .mulT (st 0xFF 0)) = some (0, 0) := by decide +kernel
theorem test_invT : outcome (exec .invT (st 0x53 0xFFFFFFFF)) = some (0xCA, 0) := by decide +kernel
theorem test_invT_one : outcome (exec .invT (st 1 0)) = some (1, 0) := by decide +kernel
theorem test_divT : outcome (exec .divT (st 0xC1 0x57)) = some (0x83, 0) := by decide +kernel
theorem test_divT_zero : outcome (exec .divT (st 0x57 0)) = some (0xDEADBEEF, 4) := by decide
theorem test_powT : outcome (exec .powT (st 0x03 0x19)) = some (0x02, 0) := by decide +kernel
theorem test_powT_range : outcome (exec .powT (st 0x03 0x100)) = some (0xDEADBEEF, 3) := by decide

/-- The trace of `inv_D(0x53)` (95_test_vectors.md section 2.2): four iterations, ending at coefficient 0xCA. -/
theorem test_inverter_trace :
    euclidOf 0x53 = { oldR := 1, r := 0, oldT := 0xCA, t := 0x11B, iters := 4 } := by decide +kernel

/-! ### Readiness, decode and the port (95_test_vectors.md section 4), with `GF_BASE` = 0 -/

theorem test_not_ready :
    seen (step (at' (early 0x57 0x83) [.access (.write 0x08 4 0x10)])) = some (none, 0x20) := by decide
theorem test_illegal_before_ready : outcome (step (at' (early 0 0) [.access (.write 0x08 4 0x07)])) = some (0, 1) := by decide
theorem test_reserved_bits_illegal :
    outcome (step (at' (st 0x57 0x83) [.access (.write 0x08 4 0x110)])) = some (0xDEADBEEF, 1) := by decide
theorem test_cmd_write_runs :
    outcome (step (at' (st 0x57 0x83) [.access (.write 0x08 4 0x10)])) = some (0xC1, 0) := by decide +kernel
theorem test_read_cmd : seen (step (at' (st 1 2) [.access (.read 0x08 4)])) = some (some 0, 1) := by decide
theorem test_read_res : seen (step (at' (st 1 2) [.access (.read 0x0C 4)])) = some (some 0xDEADBEEF, 1) := by decide
theorem test_read_status :
    seen (step (at' { st 1 2 with ecode := 4 } [.access (.read 0x10 4)])) = some (some 0x41, 0x41) := by decide
theorem test_write_status_ignored :
    seen (step (at' { st 1 2 with ecode := 4 } [.access (.write 0x10 4 0)])) = some (none, 0x41) := by decide
theorem test_write_res_ignored :
    outcome (step (at' (st 1 2) [.access (.write 0x0C 4 0x12345678)])) = some (0xDEADBEEF, 0) := by decide
theorem test_sub_word_refused : stopped (step (at' (st 1 2) [.access (.read 0x0C 1)])) = some (.inr .accessWidth) := by decide
theorem test_misaligned_refused : stopped (step (at' (st 1 2) [.access (.read 0x0E 4)])) = some (.inr .misaligned) := by decide
theorem test_outside_refused :
    stopped (step (at' (st 1 2) [.access (.read 0x20 4)])) = some (.inr .outsideWindow) := by decide
theorem test_cut_access_refused :
    stopped (step (at' (st 1 2) [.accessCutByReset (.read 0 4)])) = some (.inr .overlapsReset) := by decide
theorem test_reset : seen (step (at' (st 1 2) [.reset])) = some (none, 0) := by decide
theorem test_gen_keeps_ecode : seen (step (at' { early 0 0 with ecode := 2 } [.gen])) = some (none, 0x21) := by decide
theorem test_gen_once : stopped (step (at' (st 1 2) [.gen])) = some (.inl .genNotPending) := by decide
theorem test_idle_takes_gen : seen (step State.reset) = some (none, 1) := by decide
theorem test_fetch_word_runs : outcome (step (State.reset.withFetchWord 32 0x13)) = some (1, 0) := by decide +kernel

/-! ### Host programs, one statement at a time (95_test_vectors.md section 5), and polynomial rendering (section 1.1) -/

/-- What a host statement leaves: the host, and the block's RES and ECODE. -/
def hostSeen (o : Host.Outcome (HostState × State) Fault Refusal) : Option (HostState × Word × BitVec 4) :=
  match o with
  | .next (h, s) => some (h, s.res, s.ecode)
  | .fault _ => none
  | .refused _ => none

theorem test_wait_ready_reads : hostSeen (hostStep (waitReady 0 7) ⟨0, []⟩ State.reset) = some (⟨1, [(7, 0)]⟩, 0, 0) := by decide
theorem test_wait_ready_loops :
    hostSeen (hostStep (waitReady 0 7) ⟨1, [(7, 0)]⟩ State.reset) = some (⟨0, [(7, 0)]⟩, 0, 0) := by decide
theorem test_wait_ready_leaves :
    hostSeen (hostStep (waitReady 0 7) ⟨1, [(7, 1)]⟩ State.reset) = some (⟨2, [(7, 1)]⟩, 0, 0) := by decide
theorem test_host_writes_cmd :
    hostSeen (hostStep (twoOperand .mulD (.num 0x57) (.num 0x83) 1 2) ⟨2, []⟩ (st 0x57 0x83)) =
      some (⟨3, []⟩, 0xC1, 0) := by decide +kernel
theorem test_host_branches_on_set_bit :
    hostSeen (hostStep [.bnz 1 6 15] ⟨0, [(1, 0x41)]⟩ (st 0 0)) = some (⟨15, [(1, 0x41)]⟩, 0xDEADBEEF, 0) := by decide
theorem test_host_writes_variable :
    hostSeen (hostStep [.wr .opb (.var 3), .halt] ⟨0, [(3, 0xCA)]⟩ (st 0 0)) = some (⟨1, [(3, 0xCA)]⟩, 0xDEADBEEF, 0) := by
  decide

theorem test_render_0x1B : polynomialTerms 0x1B = [.pow 4, .pow 3, .x, .one] := by decide
theorem test_render_small : polynomialTerms 0 = [] ∧ polynomialTerms 1 = [.one] ∧ polynomialTerms 2 = [.x] := by decide

/-! ### The listed tables are built tables -/

/-- A memory of the 255 listed values reads as the list. -/
theorem read?_listed (vs : List Nat) (h : vs.length = 255) (hlt : ∀ v ∈ vs, v < 256) (i : Nat) (hi : i < 255) (d : Byte) :
    ((Memory.read? (Memory.ofValues 0 vs) i).getD d).toNat = vs.getD i 0 := by
  have hk : i < vs.length := by omega
  have := Memory.read?_ofValues vs 0 i hk
  rw [Nat.zero_add] at this
  rw [this, Option.getD_some, BitVec.toNat_ofNat, List.getD_eq_getElem _ _ hk]
  exact Nat.mod_eq_of_lt (hlt _ (List.getElem_mem hk))

theorem expContents_facts : expContents.length = 255 ∧ ∀ v ∈ expContents, v < 256 := by decide +kernel
theorem logContents_facts : logContents.length = 255 ∧ ∀ v ∈ logContents, v < 256 := by decide +kernel

/-- The test states hold built tables. -/
theorem st_tablesBuilt (a b : Word) : TablesBuilt (st a b) where
  exp i hi := read?_listed _ expContents_facts.1 expContents_facts.2 i hi _
  log i hi := read?_listed _ logContents_facts.1 logContents_facts.2 i hi _

/-- The test states meet the invariant. -/
theorem st_inv (a b : Word) : Inv (st a b) where
  config := rfl
  exp := Memory.wf_ofValues _ (le_of_eq expContents_facts.1)
  log := Memory.wf_ofValues _ (le_of_eq logContents_facts.1)
  ecode := (by decide : (0#4).toNat ≤ 5)
  tables _ := st_tablesBuilt a b

theorem reset_memories_wf : Memory.wf State.reset.exp = true ∧ Memory.wf State.reset.log = true := by decide

/-! ### Witnesses of the statements' hypotheses -/

theorem witness_AddXorsElements :
    (st 0xFF 0xFF).ready = true ∧ IsElem (st 0xFF 0xFF).opa ∧ IsElem (st 0xFF 0xFF).opb ∧
    (st 0xFF 0xFF).opa = (st 0xFF 0xFF).opb ∧ (st 0xFF 0).opb = 0 ∧
    ¬(IsElem (st 0x100 0).opa ∧ IsElem (st 0x100 0).opb) := by decide

theorem witness_SubUndoesAdd :
    (st 0xFF 0xFF).ready = true ∧ IsElem (st 0xFF 0xFF).opa ∧ IsElem (st 0xFF 0xFF).opb ∧
    (∃ t, t = { st 0xFF 0xFF with opa := (st 0xFF 0xFF).opa ^^^ (st 0xFF 0xFF).opb }) ∧
    (st 0xFF 0xFF).opa = (st 0xFF 0xFF).opb ∧ ¬(IsElem (st 0 0x100).opa ∧ IsElem (st 0 0x100).opb) :=
  ⟨rfl, by decide, by decide, ⟨_, rfl⟩, rfl, by decide⟩

theorem witness_ClmulGivesWholeProduct :
    (st 0xFFFF 0xFFFF).ready = true ∧ IsPoly16 (st 0xFFFF 0xFFFF).opa ∧ IsPoly16 (st 0xFFFF 0xFFFF).opb ∧
    (st 0 0xFFFF).opa = 0 ∧ (st 0xFFFF 0).opb = 0 ∧
    ¬(IsPoly16 (st 0x10000 1).opa ∧ IsPoly16 (st 0x10000 1).opb) := by decide

theorem witness_PdivGivesQuotient :
    (st 5 7).ready = true ∧ (st 5 7).opb ≠ 0 ∧ bitlen (st 5 7).opa.toNat = bitlen (st 5 7).opb.toNat ∧
    bitlen (st 3 0x11B).opa.toNat < bitlen (st 3 0x11B).opb.toNat ∧ (st 0xFFFFFFFF 1).opb = 1 ∧ (st 0 0).opb = 0 := by
  decide

theorem witness_RdexpReadsEntry :
    (st 254 0).ready = true ∧ (st 254 0).opa.toNat ≤ 254 ∧ 254 < (st 255 0).opa.toNat ∧ TablesBuilt (st 0 0) ∧
    (st 0 0).opa = 0 ∧ TablesBuilt (st 254 0) ∧ (st 254 0).opa = 254 :=
  ⟨rfl, by decide, by decide, st_tablesBuilt _ _, rfl, st_tablesBuilt _ _, rfl⟩

theorem witness_RdlogReadsLogarithm :
    (st 255 0).ready = true ∧ 1 ≤ (st 1 0).opa.toNat ∧ (st 255 0).opa.toNat ≤ 255 ∧ (st 0 0).opa = 0 ∧
    255 < (st 256 0).opa.toNat ∧ TablesBuilt (st 3 0) ∧ (st 3 0).opa = 3 ∧ (st 1 0).opa = 1 ∧ (st 255 0).opa = 0xFF :=
  ⟨rfl, by decide, by decide, rfl, by decide, st_tablesBuilt _ _, rfl, rfl, rfl⟩

theorem witness_MulDMultipliesElements :
    (st 0xFF 0xFF).ready = true ∧ IsElem (st 0xFF 0xFF).opa ∧ IsElem (st 0xFF 0xFF).opb ∧ (st 0 0xFF).opa = 0 ∧
    (st 1 0xFF).opa = 1 ∧ (st 0xFF 1).opb = 1 ∧ (st 2 0x80).opb = 0x80 ∧
    ¬(IsElem (st 0x100 2).opa ∧ IsElem (st 0x100 2).opb) ∧ TablesBuilt (st 0xFF 0xFF) :=
  ⟨rfl, by decide, by decide, rfl, rfl, rfl, rfl, by decide, st_tablesBuilt _ _⟩

theorem witness_InvDInvertsElement :
    (st 0xFF 0).ready = true ∧ IsElem (st 0xFF 0).opa ∧ (st 0xFF 0).opa ≠ 0 ∧ (st 0 0).opa = 0 ∧
    ¬IsElem (st 0x100 0).opa ∧ (0x02#32, 0x8D#32) ∈ [(0x01#32, 0x01#32), (0x02, 0x8D), (0xFF, 0x1C), (0x80, 0x83)] ∧
    (st 0x02 0).opa = 0x02 ∧ TablesBuilt (st 0x02 0) :=
  ⟨rfl, by decide, by decide, rfl, by decide, by decide, rfl, st_tablesBuilt _ _⟩

theorem witness_DivDMultipliesByInverse :
    (st 0xFF 0xFF).ready = true ∧ IsElem (st 0xFF 0xFF).opa ∧ IsElem (st 0xFF 0xFF).opb ∧ (st 0xFF 0xFF).opb ≠ 0 ∧
    (st 0xFF 0xFF).opa = (st 0xFF 0xFF).opb ∧ (st 1 0xFF).opa = 1 ∧ (st 0 5).opa = 0 ∧ (st 0x57 1).opb = 1 ∧
    (IsElem (st 0 0).opa ∧ (st 0 0).opb = 0) ∧ ¬(IsElem (st 0x100 0).opa ∧ IsElem (st 0x100 0).opb) := by decide

theorem witness_DivTMultipliesByInverse :
    (st 0xFF 0xFF).ready = true ∧ IsElem (st 0xFF 0xFF).opa ∧ IsElem (st 0xFF 0xFF).opb ∧ (st 0xFF 0xFF).opb ≠ 0 ∧
    (st 0 5).opa = 0 ∧ (IsElem (st 0x57 0).opa ∧ (st 0x57 0).opb = 0) ∧
    ¬(IsElem (st 0x100 0).opa ∧ IsElem (st 0x100 0).opb) ∧ TablesBuilt (st 0xFF 0xFF) :=
  ⟨rfl, by decide, by decide, by decide, rfl, by decide, by decide, st_tablesBuilt _ _⟩

theorem witness_PowDMultipliesRepeatedly :
    (st 0xFF 0xFF).ready = true ∧ IsElem (st 0xFF 0xFF).opa ∧ IsElem (st 0xFF 0xFF).opb ∧ (st 0xFF 0xFF).opa ≠ 0 ∧
    (st 0xFF 0xFF).opb = 255 ∧ (st 0xFF 0xFE).opb = 254 ∧ (st 0 0).opb = 0 ∧ ((st 0 1).opa = 0 ∧ (st 0 1).opb ≠ 0) ∧
    (st 0xFF 1).opb = 1 ∧ (st 1 0xFF).opa = 1 ∧ ¬(IsElem (st 3 0x100).opa ∧ IsElem (st 3 0x100).opb) := by decide

theorem witness_PowTMultipliesRepeatedly :
    (st 0xFF 0xFF).ready = true ∧ IsElem (st 0xFF 0xFF).opa ∧ IsElem (st 0xFF 0xFF).opb ∧ (st 0 0).opb = 0 ∧
    ((st 0 0xFF).opa = 0 ∧ (st 0 0xFF).opb ≠ 0) ∧ ¬(IsElem (st 3 0x100).opa ∧ IsElem (st 3 0x100).opb) ∧
    TablesBuilt (st 0xFF 0xFF) :=
  ⟨rfl, by decide, by decide, rfl, by decide, by decide, st_tablesBuilt _ _⟩

theorem witness_MulTAddsLogarithms :
    (st 0xFF 0).ready = true ∧ IsElem (st 0xFF 0).opa ∧ IsElem (st 0xFF 0).opb ∧ (st 0xFF 0).opb = 0 ∧
    ((st 0xFF 0xFF).opa ≠ 0 ∧ (st 0xFF 0xFF).opb ≠ 0) ∧ ¬(IsElem (st 2 0x100).opa ∧ IsElem (st 2 0x100).opb) ∧
    TablesBuilt (st 0xFF 0xFF) ∧ (st 0xFF 0xFF).opa = 0xFF :=
  ⟨rfl, by decide, by decide, rfl, by decide, by decide, st_tablesBuilt _ _, rfl⟩

theorem witness_InvTNegatesLogarithm :
    (st 0xFF 0).ready = true ∧ IsElem (st 0xFF 0).opa ∧ (st 0xFF 0).opa ≠ 0 ∧ (st 0 0).opa = 0 ∧ ¬IsElem (st 0x100 0).opa ∧
    TablesBuilt (st 1 0) ∧ (st 1 0).opa = 1 ∧ TablesBuilt (st 3 0) ∧ (st 3 0).opa = 3 :=
  ⟨rfl, by decide, by decide, rfl, by decide, st_tablesBuilt _ _, rfl, st_tablesBuilt _ _, rfl⟩

/-- A port that holds a CMD write of an illegal word, ready or not. -/
theorem witness_IllegalWordOnlySetsEcode :
    ∃ (s : State) (w : Word) (rest : List PortEvent), s.config.wf = true ∧
      s.port = .access (.write (s.config.gfBase + 0x08) 4 w) :: rest ∧ ∃ e, decode w = .error e :=
  ⟨at' (st 0 0) [.access (.write 0x08 4 0x1C)], 0x1C, [], rfl, rfl, .reservedOp, by rfl⟩

theorem witness_EngineBitNamesEngine : (encode .mulT).extractLsb 7 4 = 0b0001#4 := by decide

/-- A CMD write of a command at a base other than 0, followed by a read. -/
theorem witness_StepRunsDecodedCommand :
    ∃ (s : State) (w : Word) (i : Instr) (rest : List PortEvent), s.config.wf = true ∧
      s.port = .access (.write (s.config.gfBase + 0x08) 4 w) :: rest ∧ decode w = .ok i :=
  ⟨{ st 2 3 with config := ⟨0x40, true⟩, port := [.access (.write 0x48 4 0x1B), .access (.read 0x4C 4)] }, 0x1B, .powT,
    [.access (.read 0x4C 4)], rfl, rfl, by rfl⟩

theorem witness_CmdWriteReportsFirstError :
    (∃ e, decode 0 = .error e) ∧ decode 0x12 = .ok .divD ∧ (early 0x100 0).ready = false ∧
    ((st 0x100 0).ready = true ∧ ¬OperandsAdmitted .divD (st 0x100 0)) ∧
    (OperandsAdmitted .divD (st 0xFF 0) ∧ ZeroDivisor .divD (st 0xFF 0)) ∧
    (OperandsAdmitted .divD (st 0xFF 1) ∧ ¬ZeroDivisor .divD (st 0xFF 1)) ∧
    (at' (st 0xFF 1) [.access (.write 0x08 4 0x12)]).port = .access (.write ((st 0xFF 1).config.gfBase + 0x08) 4 0x12) :: [] ∧
    (st 0xFF 1).config.wf = true :=
  ⟨⟨.reservedOp, rfl⟩, rfl, rfl, ⟨rfl, fun h => absurd h.1 (by decide)⟩, ⟨⟨by decide, by decide⟩, rfl⟩,
    ⟨⟨by decide, by decide⟩, fun h => absurd (show (1 : Word) = 0 from h) (by decide)⟩, rfl, rfl⟩

theorem witness_FetchWordRunsCommand :
    State.reset.config.wf = true ∧ decodeTableWord 32 0x1B = some .powT ∧ State.reset.ready = false ∧
    (st 0 0).config.wf = true ∧ (st 0 0).ready = true := by decide

/-- Also the witness of the NOT_READY clauses of RDEXP, RDLOG, MUL.T, INV.T, DIV.T and POW.T. -/
theorem witness_NotReadyCommandOnlySetsEcode : (early 0x57 0x83).ready = false := rfl

/-- A command that answers a next state, completing with RES written. -/
theorem witness_CommandFrame : ∃ t, exec .add (st 0xFF 1) = .next t ∧ t.ecode = 0 := ⟨_, rfl, rfl⟩

/-- A command that fails. -/
theorem witness_FailingCommandKeepsResult : ∃ t, exec .divT (st 0xFF 0) = .next t ∧ t.ecode ≠ 0 :=
  ⟨_, rfl, by decide⟩

theorem witness_CommandNeverReportsInternal : ∃ t, exec .invD (st 0xDA 0) = .next t := ⟨_, rfl⟩

theorem witness_RepeatedCommandRepeatsOutcome : ∃ t, exec .mulT (st 0xFF 0xFF) = .next t := ⟨_, rfl⟩

theorem witness_ResultIgnoresEarlierResults : ∃ t, exec .sub (st 0xFF 1) = .next t ∧ t.ecode = 0 := ⟨_, rfl, rfl⟩

theorem witness_OneOperandCommandsIgnoreOpb :
    ∃ i ∈ [Instr.invD, .invT, .rdexp, .rdlog], ∃ t, exec i (st 0xFF 0x100) = .next t :=
  ⟨.rdlog, by decide, _, rfl⟩

/-- Two memories that differ only at index 255, beyond the tables. -/
theorem witness_CommandsReadTablesInsideLength :
    ∃ (s t : State) (exp' log' : Memory), exp' ≠ s.exp ∧
      (∀ k < 255, ({ s with exp := exp', log := log' } : State).expEntry k = s.expEntry k ∧
        ({ s with exp := exp', log := log' } : State).logEntry k = s.logEntry k) ∧ exec .rdexp s = .next t := by
  refine ⟨{ st 254 0 with exp := [] }, _, [(255, 1)], (st 254 0).log, by decide, fun k hk => ⟨?_, rfl⟩, rfl⟩
  have h : Nat.beq k 255 = false := by rw [Memory.beq_decide]; exact decide_eq_false (by omega)
  simp [State.expEntry, Memory.read?, h]

theorem witness_GeneratorStepFillsTables :
    (at' (early 0x57 0x83) [.gen]).port = .gen :: [] ∧ (at' (early 0x57 0x83) [.gen]).ready = false := by decide

theorem witness_GeneratorStepIsTakenOnce :
    ((at' (st 1 2) [.gen]).port = .gen :: [] ∧ (at' (st 1 2) [.gen]).ready = true) ∧
    (State.reset.port = [] ∧ State.reset.ready = false) ∧ ((st 1 2).port = [] ∧ (st 1 2).ready = true) := by decide

theorem witness_TablesAreInverseBijections : TablesBuilt (st 0 0) ∧ 1 ≤ 255 ∧ 254 < 255 :=
  ⟨st_tablesBuilt 0 0, by decide, by decide⟩

theorem witness_RdexpOfRdlogGivesElementBack :
    (st 255 0).ready = true ∧ TablesBuilt (st 255 0) ∧ 1 ≤ (st 255 0).opa.toNat ∧ (st 255 0).opa.toNat ≤ 255 :=
  ⟨rfl, st_tablesBuilt _ _, by decide, by decide⟩

/-- The last slot of the window, at a base other than 0. -/
theorem witness_ReadReturnsSlotValue :
    ∃ (s : State) (rest : List PortEvent), s.config.wf = true ∧
      s.port = .access (.read (s.config.gfBase + 0x1C) 4) :: rest :=
  ⟨{ st 1 2 with config := ⟨0x40, false⟩, port := [.access (.read 0x5C 4)] }, [], rfl, rfl⟩

theorem witness_WriteActsOnSlot :
    (st 1 2).config.wf = true ∧
    (at' (st 1 2) [.access (.write 0x00 4 0xFFFFFFFF)]).port = .access (.write ((st 1 2).config.gfBase + 0x00) 4 0xFFFFFFFF) :: [] ∧
    (at' (st 1 2) [.access (.write 0x04 4 5)]).port = .access (.write ((st 1 2).config.gfBase + 0x04) 4 5) :: [] ∧
    (at' (st 1 2) [.access (.write 0x08 4 1)]).port = .access (.write ((st 1 2).config.gfBase + 0x08) 4 1) :: [] ∧
    (at' (st 1 2) [.access (.write 0x1C 4 5)]).port = .access (.write ((st 1 2).config.gfBase + 0x1C) 4 5) :: [] := by decide

/-- The last byte of the window, one byte wide; and a 32-bit access there. -/
theorem witness_UnadmittedAccessHasNoStep :
    (at' (st 1 2) [.access (.read 0x1F 1)]).port = .access (.read 0x1F 1) :: [] ∧
    (at' (st 1 2) [.access (.write 0x1F 4 0)]).port = .access (.write 0x1F 4 0) :: [] ∧
    (st 1 2).config.gfBase ≤ 0x1F ∧ 0x1F < (st 1 2).config.gfBase + 0x20 ∧ 1 ≠ 4 ∧ 0x1F % 4 ≠ 0 := by decide

/-- The bytes just below and just above a window at 0x40, and an access cut by a reset. -/
theorem witness_ForeignAccessHasNoStep :
    (∃ s : State, s.port = .access (.read 0x3C 4) :: [] ∧ 0x3C < s.config.gfBase) ∧
    (∃ s : State, s.port = .access (.write 0x60 4 0) :: [] ∧ s.config.gfBase + 0x20 ≤ 0x60) ∧
    ∃ s : State, s.port = .accessCutByReset (.read 0x40 4) :: [] :=
  ⟨⟨{ st 1 2 with config := ⟨0x40, false⟩, port := [.access (.read 0x3C 4)] }, rfl, by decide⟩,
    ⟨{ st 1 2 with config := ⟨0x40, false⟩, port := [.access (.write 0x60 4 0)] }, rfl, by decide⟩,
    ⟨at' (st 1 2) [.accessCutByReset (.read 0x40 4)], rfl⟩⟩

theorem witness_ReadReturnsPrecedingWrite :
    (st 1 2).config.wf = true ∧
    (at' (st 1 2) [.access (.write 0x04 4 0xFFFFFFFF), .access (.read 0x04 4)]).port =
      .access (.write ((st 1 2).config.gfBase + 0x04) 4 0xFFFFFFFF) :: .access (.read ((st 1 2).config.gfBase + 0x04) 4) :: [] := by
  decide

theorem witness_ResetClearsRegisters : (at' (st 1 2) [.reset, .gen]).port = .reset :: [.gen] := rfl

/-- A step from a state that meets the invariant and is ready. -/
theorem witness_StepKeepsInvariant :
    Inv (at' (st 1 2) [.access (.write 0x00 4 3)]) ∧ (at' (st 1 2) [.access (.write 0x00 4 3)]).ready = true ∧
    (at' (st 1 2) [.access (.write 0x00 4 3)]).port.head? ≠ some .reset ∧
    ∃ t, step (at' (st 1 2) [.access (.write 0x00 4 3)]) = .next t :=
  ⟨⟨rfl, (st_inv 1 2).exp, (st_inv 1 2).log, (st_inv 1 2).ecode, fun _ => ⟨(st_tablesBuilt 1 2).exp, (st_tablesBuilt 1 2).log⟩⟩,
    rfl, by decide, _, rfl⟩

/-- READY cleared by a reset, and set by the generator step. -/
theorem witness_OnlyResetAndGeneratorChangeReady :
    (∃ t, step (at' (st 1 2) [.reset]) = .next t ∧ (at' (st 1 2) [.reset]).ready ≠ t.ready) ∧
    ∃ t, step (at' (early 1 2) [.gen]) = .next t ∧ (at' (early 1 2) [.gen]).ready ≠ t.ready :=
  ⟨⟨_, rfl, by decide⟩, ⟨_, rfl, by decide⟩⟩

theorem witness_OperandsKeptUntilWrittenOrReset :
    ∃ s t : State, s.config.wf = true ∧ step s = .next t ∧ s.port.head? ≠ some .reset ∧
      (∀ v, s.port.head? ≠ some (.access (.write (s.config.gfBase + 0x00) 4 v))) ∧
      ∀ v, s.port.head? ≠ some (.access (.write (s.config.gfBase + 0x04) 4 v)) :=
  ⟨at' (st 1 2) [.access (.write 0x08 4 1)], _, rfl, rfl, by decide, by intro v h; simp [at', st, State.reset] at h,
    by intro v h; simp [at', st, State.reset] at h⟩

/-- A step that is no CMD write, and a CMD write that changes RES. -/
theorem witness_OutcomeKeptUntilNextCommandOrReset :
    (∃ s t : State, s.config.wf = true ∧ step s = .next t ∧ s.port.head? ≠ some .reset ∧
      ∀ w, s.port.head? ≠ some (.access (.write (s.config.gfBase + 0x08) 4 w))) ∧
    ∃ s t : State, s.config.wf = true ∧ step s = .next t ∧ s.port.head? ≠ some .reset ∧ t.res ≠ s.res :=
  ⟨⟨at' (st 1 2) [.access (.write 0x00 4 1)], _, rfl, rfl, by decide, by intro v h; simp [at', st, State.reset] at h⟩,
    ⟨at' (st 1 2) [.access (.write 0x08 4 1)], _, rfl, rfl, by decide, by decide⟩⟩

theorem witness_AcceleratorHasNoEffect :
    (∃ t, step (at' (st 1 2) [.access (.write 0x08 4 1)]) = .next t) ∧
    (∃ f, step (at' (st 1 2) [.gen]) = .fault f) ∧ ∃ r, step (at' (st 1 2) [.access (.read 0x20 4)]) = .refused r :=
  ⟨⟨_, rfl⟩, ⟨_, rfl⟩, ⟨_, rfl⟩⟩

/-- A port with an early command and a poll, both admitted. -/
theorem witness_GeneratorStepComesWhenPortDrains :
    (at' (early 1 2) [.access (.write 0x08 4 1), .access (.read 0x10 4)]).ready = false ∧
    ∀ ev ∈ (at' (early 1 2) [.access (.write 0x08 4 1), .access (.read 0x10 4)]).port, ∃ a, ev = .access a ∧
      Admitted (early 1 2).config a := by
  refine ⟨rfl, fun ev h => ?_⟩
  have h' : ev = .access (.write 0x08 4 1) ∨ ev = .access (.read 0x10 4) := by simpa [at'] using h
  rcases h' with rfl | rfl
  · exact ⟨_, rfl, (rfl : refusalOf (early 1 2).config 0x08 4 = none)⟩
  · exact ⟨_, rfl, (rfl : refusalOf (early 1 2).config 0x10 4 = none)⟩

/-- The premise of the cross-engine statement holds before and after the tables are built. -/
theorem witness_EnginesAgree :
    ((early 1 2).ready = true → TablesBuilt (early 1 2)) ∧ ((st 0xFF 0xFF).ready = true → TablesBuilt (st 0xFF 0xFF)) :=
  ⟨fun h => (by cases h), fun _ => st_tablesBuilt _ _⟩

theorem witness_MulDIsProductModuloPoly : 255 < 256 := by decide

theorem witness_FieldLawsHold :
    (∃ (mul : Nat → Nat → Nat) (inv : Nat → Except Err Nat), mul = mulD ∧ inv = invD) ∧
    (∃ (mul : Nat → Nat → Nat) (inv : Nat → Except Err Nat) (s : State), TablesBuilt s ∧ mul = mulT s ∧ inv = invT s) ∧
    255 ≠ 0 ∧ 255 < 256 :=
  ⟨⟨_, _, rfl, rfl⟩, ⟨_, _, st 0 0, st_tablesBuilt 0 0, rfl, rfl⟩, by decide, by decide⟩

theorem witness_ClmulLaws : (3 : Nat) ≠ 0 ∧ (0x11B : Nat) ≠ 0 := by decide

theorem witness_PdivIsEuclideanDivision :
    (0x11B : Nat) ≠ 0 ∧ bitlen 0x11B ≤ bitlen 0x11B ∧ bitlen 0xFF < bitlen 0x11B ∧ 0xFFFFFFFF < 2 ^ 32 := by decide

theorem witness_InverterLoopEndsWithGcdOne :
    0xC4 < 256 ∧ 0xC4 ≠ 0 ∧ (7 : Nat) ≤ 8 ∧
    (euclidLoop 7 { oldR := 0x11B, r := 0xC4, oldT := 0, t := 1, iters := 0 }).r ≠ 0 := by decide +kernel

end Sys2Proof.Tests
end

/-! ### HAS_ACCEL has no effect (00_scope.md R7)

Setting HAS_ACCEL commutes with every operation of the machine, up to the step: each operation reads of the parameters at most
GF_BASE, and hands them on as they are. -/

namespace Sys2Proof.Machine

/-- The same machine on a platform with HAS_ACCEL = `b` (00_scope.md R7). -/
def State.withAccel (s : State) (b : Bool) : State := { s with config := { s.config with hasAccel := b } }

/-- The outcome with HAS_ACCEL = `b` in the next state, if it has one; a stop stays that stop. -/
def accelOutcome (b : Bool) : Host.Outcome State Fault Refusal → Host.Outcome State Fault Refusal
  | .next t => .next (t.withAccel b)
  | .fault f => .fault f
  | .refused r => .refused r

section
variable (s : State) (b : Bool)

@[simp] theorem State.withAccel_ready : (s.withAccel b).ready = s.ready := rfl

@[simp] theorem accelOutcome_next (t : State) : accelOutcome b (.next t) = .next (t.withAccel b) := rfl
@[simp] theorem accelOutcome_fault (f : Fault) : accelOutcome b (.fault f) = .fault f := rfl
@[simp] theorem accelOutcome_refused (r : Refusal) : accelOutcome b (.refused r) = .refused r := rfl

@[simp] theorem State.withAccel_popped (rest : List PortEvent) :
    (s.withAccel b).popped rest = (s.popped rest).withAccel b := rfl
@[simp] theorem State.withAccel_generate : (s.withAccel b).generate = s.generate.withAccel b := rfl
@[simp] theorem State.withAccel_resetEvent : (s.withAccel b).resetEvent = s.resetEvent.withAccel b := rfl
@[simp] theorem State.withAccel_raise (e : Err) : (s.withAccel b).raise e = (s.raise e).withAccel b := rfl
@[simp] theorem State.withAccel_slotValue (slot : Slot) : (s.withAccel b).slotValue slot = s.slotValue slot := by
  cases slot <;> rfl

@[simp] theorem State.withAccel_settle (r : Except Err Word) : (s.withAccel b).settle r = (s.settle r).withAccel b := by
  cases r <;> rfl

theorem runCommand_withAccel (r : Except Err Word) :
    runCommand (s.withAccel b) r = accelOutcome b (runCommand s r) := by
  cases hr : s.ready with
  | false => simp [runCommand_notReady, hr]
  | true => simp [runCommand_ready, hr]

/-- The outcome a command ends with is computed from operands and tables, which are the same under either HAS_ACCEL. -/
theorem exec_withAccel (i : Instr) : exec i (s.withAccel b) = accelOutcome b (exec i s) := by
  cases i <;> exact runCommand_withAccel s b _

theorem executeCommand_withAccel (w : Word) :
    executeCommand w (s.withAccel b) = accelOutcome b (executeCommand w s) := by
  unfold executeCommand
  cases decode w with
  | ok i => exact exec_withAccel s b i
  | error _ => rfl

theorem writeSlot_withAccel (slot : Slot) (v : Word) :
    writeSlot slot v (s.withAccel b) = accelOutcome b (writeSlot slot v s) := by
  cases slot
  case cmd => exact executeCommand_withAccel s b v
  all_goals rfl

/-- Of the parameters an access reads GF_BASE alone, so `hr` speaks of both states. -/
theorem performAccess_withAccel (a : Access) :
    performAccess a (s.withAccel b) = accelOutcome b (performAccess a s) := by
  cases a with
  | read addr width =>
    cases hr : refusalOf s.config addr width with
    | none =>
      rw [performAccess_read hr, performAccess_read (s := s.withAccel b) hr, State.withAccel_slotValue]
      rfl
    | some r =>
      rw [(performAccess_refused hr).1, (performAccess_refused (s := s.withAccel b) hr).1, accelOutcome_refused]
  | write addr width v =>
    cases hr : refusalOf s.config addr width with
    | none =>
      rw [performAccess_write v hr, performAccess_write (s := s.withAccel b) v hr]
      exact writeSlot_withAccel s b _ v
    | some r =>
      rw [(performAccess_refused hr).2, (performAccess_refused (s := s.withAccel b) hr).2, accelOutcome_refused]

theorem genStep_withAccel : genStep (s.withAccel b) = accelOutcome b (genStep s) := by
  cases hr : s.ready <;> simp [genStep, hr]

theorem idleStep_withAccel : idleStep (s.withAccel b) = accelOutcome b (idleStep s) := by
  cases hr : s.ready <;> simp [idleStep, hr]

theorem performEvent_withAccel (ev : PortEvent) :
    performEvent ev (s.withAccel b) = accelOutcome b (performEvent ev s) := by
  cases ev with
  | access a => exact performAccess_withAccel s b a
  | gen => exact genStep_withAccel s b
  | reset => rfl
  | accessCutByReset _ => rfl

/-- A step from the state with HAS_ACCEL = `b` has the outcome of the step from the state itself, HAS_ACCEL = `b` in it. -/
theorem step_withAccel : step (s.withAccel b) = accelOutcome b (step s) := by
  cases hp : s.port with
  | nil => rw [step_nil hp, step_nil (s := s.withAccel b) hp, State.withAccel_popped, idleStep_withAccel]
  | cons ev rest => rw [step_cons hp, step_cons (s := s.withAccel b) hp, State.withAccel_popped, performEvent_withAccel]

end

theorem performAccess_config {a : Access} {s t : State} (h : performAccess a s = .next t) : t.config = s.config := by
  rcases performAccess_cases h with ⟨_, _, _, _, rfl⟩ | ⟨_, _, _, _, _, hw⟩
  · rfl
  · rcases hw with ⟨_, rfl⟩ | ⟨_, rfl⟩ | ⟨_, ⟨_, rfl⟩ | ⟨_, rfl⟩⟩ | rfl <;> rfl

/-- No step changes a parameter of the platform (00_scope.md R7). -/
theorem step_config {s t : State} (h : step s = .next t) : t.config = s.config := by
  rcases step_cases h with ⟨_, ⟨_, rfl⟩ | ⟨_, rfl⟩⟩ | ⟨_, _, _, ⟨_, _, rfl⟩ | ⟨_, rfl⟩ | ⟨_, _, ha⟩⟩
  · rfl
  · rfl
  · rfl
  · rfl
  · exact (performAccess_config ha).trans (s.popped_config _)

/-- Settles O48: setting HAS_ACCEL commutes with the step, and every way a step can answer a next state keeps the
parameters. -/
theorem acceleratorHasNoEffect : Obligations.AcceleratorHasNoEffect := by
  intro s b
  refine ⟨fun _ h => step_config h, fun t h => ?_, fun f h => ?_, fun r h => ?_⟩
  · exact (step_withAccel s b).trans (by rw [h, accelOutcome_next, State.withAccel])
  · exact (step_withAccel s b).trans (by rw [h, accelOutcome_fault])
  · exact (step_withAccel s b).trans (by rw [h, accelOutcome_refused])

end Sys2Proof.Machine

/-! ### The generator step builds the listed tables (42_table_engine.md R133, R134)

The kernel runs the two loops of `generate()` once, as lists; reading the entries of a listed memory is a general fact. -/

namespace Sys2Proof.Machine

/-- The first loop of `generate()` gives EXP as listed. -/
theorem generatorValues_eq_expContents : generatorValues 255 1 = expContents := by decide +kernel

/-- The second loop of `generate()` gives LOG as listed. -/
theorem logWrites_expContents : logWrites 0 expContents [] = Memory.ofValues 0 logContents := by decide +kernel

theorem generatedExp_eq_listed : generatedExp = Memory.ofValues 0 expContents := by
  rw [generatedExp, generatorValues_eq_expContents]

theorem generatedLog_eq_listed : generatedLog = Memory.ofValues 0 logContents := by
  rw [generatedLog_eq 255 rfl, generatorValues_eq_expContents, logWrites_expContents]

/-- A memory of consecutive byte values reads, at an index it lists, as that value, whatever unlisted indices read as. -/
theorem toNat_getD_read?_ofValues {vs : List Nat} (hlt : ∀ v ∈ vs, v < 256) {i : Nat} (hi : i < vs.length) (d : Byte) :
    ((Memory.read? (Memory.ofValues 0 vs) i).getD d).toNat = vs.getD i 0 := by
  have hread : Memory.read? (Memory.ofValues 0 vs) i = some (BitVec.ofNat 8 vs[i]) := by
    simpa using Memory.read?_ofValues vs 0 i hi
  have hbyte : vs[i] < 2 ^ 8 := hlt _ (List.getElem_mem hi)
  rw [hread, Option.getD_some, BitVec.toNat_ofNat, Nat.mod_eq_of_lt hbyte, List.getD_eq_getElem _ _ hi]

theorem expContents_length : expContents.length = 255 := by
  rw [← generatorValues_eq_expContents, generatorValues_length]

theorem expContents_lt : ∀ v ∈ expContents, v < 256 := by
  rw [← generatorValues_eq_expContents]
  exact generatorValues_lt 255 1 (by norm_num)

theorem logContents_length : logContents.length = 255 := by decide +kernel

theorem logContents_lt : ∀ v ∈ logContents, v < 256 := by decide +kernel

/-- After the generator step, from every state, both tables read as the spec lists them (R134). -/
theorem State.generate_tablesBuilt (s : State) : TablesBuilt s.generate where
  exp i hi := by
    rw [State.generate_expEntry, generatedExp_eq_listed]
    exact toNat_getD_read?_ofValues expContents_lt (expContents_length.symm ▸ hi) _
  log i hi := by
    rw [State.generate_logEntry, generatedLog_eq_listed]
    exact toNat_getD_read?_ofValues logContents_lt (logContents_length.symm ▸ hi) _

end Sys2Proof.Machine

/-! ### What accesses and commands leave alone (10_state.md R20, R23, R32) -/

namespace Sys2Proof.Machine

/-- `t` has the READY and the table memories of `s`, and unlisted table entries read as in `s`. -/
structure SameTables (s t : State) : Prop where
  ready : t.ready = s.ready
  exp : t.exp = s.exp
  log : t.log = s.log
  tableEpoch : t.tableEpoch = s.tableEpoch

namespace SameTables

variable {s t u : State}

theorem complete (s : State) (v : Word) : SameTables s (s.complete v) := ⟨rfl, rfl, rfl, rfl⟩
theorem raise (s : State) (e : Err) : SameTables s (s.raise e) := ⟨rfl, rfl, rfl, rfl⟩
theorem popped (s : State) (rest : List PortEvent) : SameTables s (s.popped rest) := ⟨rfl, rfl, rfl, rfl⟩

theorem trans (h : SameTables s t) (h' : SameTables t u) : SameTables s u :=
  ⟨h'.ready.trans h.ready, h'.exp.trans h.exp, h'.log.trans h.log, h'.tableEpoch.trans h.tableEpoch⟩

theorem expEntry (h : SameTables s t) (i : Nat) : t.expEntry i = s.expEntry i := by
  rw [State.expEntry, State.expEntry, h.exp, h.tableEpoch]

theorem logEntry (h : SameTables s t) (i : Nat) : t.logEntry i = s.logEntry i := by
  rw [State.logEntry, State.logEntry, h.log, h.tableEpoch]

theorem tablesBuilt (h : SameTables s t) (hs : TablesBuilt s) : TablesBuilt t where
  exp i hi := by rw [h.expEntry, hs.exp i hi]
  log i hi := by rw [h.logEntry, hs.log i hi]

end SameTables

/-- An access, a command's run included, changes neither READY nor a table (R23, R32). -/
theorem performAccess_sameTables {a : Access} {s t : State} (h : performAccess a s = .next t) : SameTables s t := by
  rcases performAccess_cases h with ⟨_, _, _, _, rfl⟩ | ⟨_, _, _, _, _, hw⟩
  · exact ⟨rfl, rfl, rfl, rfl⟩
  · rcases hw with ⟨_, rfl⟩ | ⟨_, rfl⟩ | ⟨_, ⟨v, rfl⟩ | ⟨e, rfl⟩⟩ | rfl
    · exact ⟨rfl, rfl, rfl, rfl⟩
    · exact ⟨rfl, rfl, rfl, rfl⟩
    · exact .complete s v
    · exact .raise s e
    · exact ⟨rfl, rfl, rfl, rfl⟩

/-- An access leaves ECODE, clears it, or writes an error's code. -/
theorem performAccess_ecode_le {a : Access} {s t : State} (h : performAccess a s = .next t) (hs : s.ecode.toNat ≤ 5) :
    t.ecode.toNat ≤ 5 := by
  rcases performAccess_cases h with ⟨_, _, _, _, rfl⟩ | ⟨_, _, _, _, _, hw⟩
  · exact hs
  · rcases hw with ⟨_, rfl⟩ | ⟨_, rfl⟩ | ⟨_, ⟨_, rfl⟩ | ⟨e, rfl⟩⟩ | rfl
    · exact hs
    · exact hs
    · exact Nat.zero_le 5
    · exact e.code_range.2
    · exact hs

/-- At a legal base an access changes an operand register only by a 32-bit write to that register's address (R20). -/
theorem performAccess_operands {a : Access} {s t : State} (hc : s.config.wf = true) (h : performAccess a s = .next t) :
    (t.opa = s.opa ∨ ∃ v, a = .write (s.config.gfBase + 0x00) 4 v) ∧
    (t.opb = s.opb ∨ ∃ v, a = .write (s.config.gfBase + 0x04) 4 v) := by
  rcases performAccess_cases h with ⟨_, _, _, _, rfl⟩ | ⟨addr, width, v, rfl, hadm, hw⟩
  · exact ⟨.inl rfl, .inl rfl⟩
  · obtain rfl : width = 4 := ((refusalOf_none_iff _ _ _).mp hadm).2.1
    obtain ⟨hopa, hopb, -⟩ := address_of_slot hc hadm
    rcases hw with ⟨hslot, rfl⟩ | ⟨hslot, rfl⟩ | ⟨_, ⟨_, rfl⟩ | ⟨_, rfl⟩⟩ | rfl
    · exact ⟨.inr ⟨v, by rw [← hopa hslot]⟩, .inl rfl⟩
    · exact ⟨.inl rfl, .inr ⟨v, by rw [← hopb hslot]⟩⟩
    · exact ⟨.inl rfl, .inl rfl⟩
    · exact ⟨.inl rfl, .inl rfl⟩
    · exact ⟨.inl rfl, .inl rfl⟩

/-- What a command computes does not depend on RES and ECODE: one outcome ends it, whatever the two held (R30). -/
theorem exec_outcome_of_res_ecode (i : Instr) (s : State) (r : Word) (e : BitVec 4) :
    ∃ o, exec i s = runCommand s o ∧
      exec i { s with res := r, ecode := e } = runCommand { s with res := r, ecode := e } o := by
  cases i <;> exact ⟨_, rfl, rfl⟩

/-- No error is reported by the code of completion. -/
theorem Err.code_ne_zero (e : Err) : e.code ≠ 0 := by cases e <;> decide

end Sys2Proof.Machine

/-! ### The invariant (10_state.md R32) -/

namespace Sys2Proof.Machine.Inv

variable {s t : State}

/-- The invariant carries over to a state with the same parameters and tables and a legal ECODE. -/
theorem of_sameTables (hi : Inv s) (hcfg : t.config = s.config) (hecode : t.ecode.toNat ≤ 5) (h : SameTables s t) :
    Inv t where
  config := hcfg ▸ hi.config
  exp := h.exp ▸ hi.exp
  log := h.log ▸ hi.log
  ecode := hecode
  tables hr := h.tablesBuilt (hi.tables (h.ready ▸ hr))

theorem popped (hi : Inv s) (rest : List PortEvent) : Inv (s.popped rest) :=
  hi.of_sameTables (s.popped_config rest) hi.ecode (.popped s rest)

theorem generate (hi : Inv s) : Inv s.generate where
  config := hi.config
  exp := generatedExp_wf
  log := generatedLog_wf
  ecode := hi.ecode
  tables _ := s.generate_tablesBuilt

theorem resetEvent (hi : Inv s) : Inv s.resetEvent where
  config := hi.config
  exp := rfl
  log := rfl
  ecode := Nat.zero_le 5
  tables := nofun

theorem of_performAccess {a : Access} (hi : Inv s) (h : performAccess a s = .next t) : Inv t :=
  hi.of_sameTables (performAccess_config h) (performAccess_ecode_le h hi.ecode) (performAccess_sameTables h)

end Sys2Proof.Machine.Inv

/-! ### The state's statements (10_state.md) -/

namespace Sys2Proof.Machine

/-- Every step keeps the invariant: the generator step builds the tables, a reset clears READY, and an access keeps both. -/
theorem step_inv {s t : State} (hi : Inv s) (h : step s = .next t) : Inv t := by
  rcases step_cases h with ⟨_, ⟨_, rfl⟩ | ⟨_, rfl⟩⟩ | ⟨_, rest, _, ⟨_, _, rfl⟩ | ⟨_, rfl⟩ | ⟨_, _, ha⟩⟩
  · exact hi.popped []
  · exact (hi.popped []).generate
  · exact (hi.popped rest).generate
  · exact (hi.popped rest).resetEvent
  · exact (hi.popped rest).of_performAccess ha

/-- A step keeps READY and the tables, or is the generator step with READY = 0, or a reset. -/
theorem step_sameTables_or {s t : State} (h : step s = .next t) :
    SameTables s t ∨ (s.ready = false ∧ t.ready = true ∧ (s.port = [] ∨ s.port.head? = some .gen)) ∨
    (t.ready = false ∧ s.port.head? = some .reset) := by
  rcases step_cases h with ⟨hp, ⟨_, rfl⟩ | ⟨hr, rfl⟩⟩ | ⟨_, rest, hp, ⟨rfl, hr, rfl⟩ | ⟨rfl, rfl⟩ | ⟨_, _, ha⟩⟩
  · exact .inl (.popped s [])
  · exact .inr (.inl ⟨hr, rfl, .inl hp⟩)
  · exact .inr (.inl ⟨hr, rfl, .inr (by rw [hp, List.head?_cons])⟩)
  · exact .inr (.inr ⟨rfl, by rw [hp, List.head?_cons]⟩)
  · exact .inl ((SameTables.popped s rest).trans (performAccess_sameTables ha))

/-- Settles O43: `step_inv` is the invariant; while READY = 1 the generator step is not enabled, so a step that is no reset
keeps the tables. -/
theorem stepKeepsInvariant : Obligations.StepKeepsInvariant := by
  intro s t hi h
  refine ⟨step_inv hi h, fun hready hreset => ?_⟩
  rcases step_sameTables_or h with hsame | ⟨hr, _⟩ | ⟨_, hp⟩
  · exact ⟨hsame.exp, hsame.log⟩
  · exact absurd hready (by simp [hr])
  · exact absurd hp hreset

/-- Settles O23: a command ends by writing RES and clearing ECODE, or by writing an error's code. -/
theorem commandFrame : Obligations.CommandFrame := by
  intro i s t h
  rcases exec_cases h with ⟨v, rfl⟩ | ⟨e, rfl⟩
  · exact ⟨rfl, rfl, rfl, rfl, fun _ => ⟨rfl, rfl⟩⟩
  · exact ⟨rfl, rfl, rfl, rfl, fun _ => ⟨rfl, rfl⟩⟩

/-- Settles O28: both runs end with one outcome, and completing overwrites RES and ECODE. -/
theorem resultIgnoresEarlierResults : Obligations.ResultIgnoresEarlierResults := by
  intro i s t r e h hcode
  obtain ⟨o, ho, ho'⟩ := exec_outcome_of_res_ecode i s r e
  rw [ho] at h
  rcases runCommand_cases h with ⟨_, rfl⟩ | ⟨hready, v, rfl, rfl⟩ | ⟨_, err, _, rfl⟩
  · exact absurd hcode (Err.code_ne_zero .notReady)
  · exact ho'.trans (runCommand_ok (s := { s with res := r, ecode := e }) hready v)
  · exact absurd hcode (Err.code_ne_zero err)

/-- Settles O45: a step that keeps READY is excluded by hypothesis, and the two kinds that remain are the two disjuncts. -/
theorem onlyResetAndGeneratorChangeReady : Obligations.OnlyResetAndGeneratorChangeReady := by
  intro s t h hne
  rcases step_sameTables_or h with hsame | ⟨hr, _, hp⟩ | ⟨hr, hp⟩
  · exact absurd hsame.ready.symm hne
  · exact .inr ⟨hr, hp⟩
  · exact .inl ⟨by simpa [hr] using hne, hp⟩

/-- Settles O46: of the steps that are no reset, only an access can touch an operand register. -/
theorem operandsKeptUntilWrittenOrReset : Obligations.OperandsKeptUntilWrittenOrReset := by
  intro s t hc h hreset
  rcases step_cases h with ⟨_, ⟨_, rfl⟩ | ⟨_, rfl⟩⟩ | ⟨_, rest, hp, ⟨_, _, rfl⟩ | ⟨rfl, _⟩ | ⟨a, rfl, ha⟩⟩
  · exact ⟨fun _ => rfl, fun _ => rfl⟩
  · exact ⟨fun _ => rfl, fun _ => rfl⟩
  · exact ⟨fun _ => rfl, fun _ => rfl⟩
  · exact absurd (by rw [hp, List.head?_cons]) hreset
  · obtain ⟨hopa, hopb⟩ := performAccess_operands (s := s.popped rest) hc ha
    rw [hp, List.head?_cons]
    refine ⟨fun hno => hopa.resolve_right ?_, fun hno => hopb.resolve_right ?_⟩
    · rintro ⟨v, rfl⟩
      exact hno v rfl
    · rintro ⟨v, rfl⟩
      exact hno v rfl

/-- The fields of the STATUS word, for each of the 32 values of READY and ECODE (R24). -/
theorem statusWord_fields : ∀ (ready : Bool) (ecode : BitVec 4),
    (statusWord ready ecode).getLsbD 0 = ready ∧ (statusWord ready ecode).extractLsb 7 4 = ecode ∧
    (statusWord ready ecode).extractLsb 3 1 = 0#3 ∧ (statusWord ready ecode).extractLsb 31 8 = 0#24 := by
  decide

/-- Settles O42: STATUS is the STATUS word of READY and ECODE. -/
theorem statusFieldsAndReservedBits : Obligations.StatusFieldsAndReservedBits :=
  fun s => statusWord_fields s.ready s.ecode

/-- Settles O44: base 0 (the model's choice, assumption log 2) is legal, the empty memories are canonical, ECODE is 0, and
READY = 0 leaves nothing to show of the tables. -/
theorem resetStateMeetsInvariant : Obligations.ResetStateMeetsInvariant where
  config := rfl
  exp := rfl
  log := rfl
  ecode := Nat.zero_le 5
  tables := nofun

end Sys2Proof.Machine

/-! ### Commands repeated, and the table entries commands read (20_memory.md R45, R49) -/

namespace Sys2Proof.Machine

/-- Ending a command with the same outcome a second time changes nothing. -/
theorem runCommand_repeated {s t : State} {r : Except Err Word} (h : runCommand s r = .next t) :
    runCommand t r = .next t := by
  rcases runCommand_cases h with ⟨hr, rfl⟩ | ⟨hr, v, rfl, rfl⟩ | ⟨hr, e, rfl, rfl⟩
  · exact runCommand_notReady (s := s.raise .notReady) hr r
  · exact runCommand_ready (s := s.complete v) hr (.ok v)
  · exact runCommand_ready (s := s.raise e) hr (.error e)

/-- Settles O27: a command keeps what it reads, so it computes the same outcome again, and ending with that repeats `t`. -/
theorem repeatedCommandRepeatsOutcome : Obligations.RepeatedCommandRepeatsOutcome := by
  intro i s t h
  obtain ⟨hframe, -⟩ := commandFrame i s t h
  obtain ⟨o, ho, ho'⟩ := exec_outcome_of_res_ecode i s t.res t.ecode
  rw [← hframe] at ho'
  exact ho'.trans (runCommand_repeated (ho ▸ h))

/-- Both states read the same at every index a table has (10_state.md R25). -/
structure SameEntries (s t : State) : Prop where
  exp : ∀ k < 255, t.expEntry k = s.expEntry k
  log : ∀ k < 255, t.logEntry k = s.logEntry k

/-- The table multiply gives an element: 0 or an entry of EXP. -/
theorem mulT_lt (s : State) (a b : Nat) : mulT s a b < 256 := by
  rcases eq_or_ne a 0 with rfl | ha
  · simp
  rcases eq_or_ne b 0 with rfl | hb
  · simp
  rw [mulT_of_ne_zero s ha hb]
  exact BitVec.isLt _

theorem invT_lt {s : State} {a i : Nat} (h : invT s a = .ok i) : i < 256 := by
  rcases eq_or_ne a 0 with rfl | ha
  · cases h
  · rw [invT_of_ne_zero s ha] at h
    cases h
    exact BitVec.isLt _

theorem powE_mulT_lt (s : State) (a : Nat) : ∀ e, powE (mulT s) a e < 256
  | 0 => by norm_num
  | e + 1 => mulT_lt s _ a

namespace SameEntries

variable {s t : State}

/-- The multiply reads LOG below an element and EXP at a sum mod 255 (R135). -/
theorem mulT_eq (h : SameEntries s t) {a b : Nat} (ha : a < 256) (hb : b < 256) : mulT t a b = mulT s a b := by
  rcases Nat.eq_zero_or_pos a with rfl | ha0
  · simp
  rcases Nat.eq_zero_or_pos b with rfl | hb0
  · simp
  rw [mulT_of_ne_zero t ha0.ne' hb0.ne', mulT_of_ne_zero s ha0.ne' hb0.ne', h.log (a - 1) (by omega),
    h.log (b - 1) (by omega), h.exp _ (Nat.mod_lt _ (by norm_num))]

/-- The inverse reads LOG below an element and EXP at a difference mod 255 (R137). -/
theorem invT_eq (h : SameEntries s t) {a : Nat} (ha : a < 256) : invT t a = invT s a := by
  rcases Nat.eq_zero_or_pos a with rfl | ha0
  · simp
  rw [invT_of_ne_zero t ha0.ne', invT_of_ne_zero s ha0.ne', h.log (a - 1) (by omega),
    h.exp _ (Nat.mod_lt _ (by norm_num))]

theorem divE_eq (h : SameEntries s t) {a b : Nat} (ha : a < 256) (hb : b < 256) :
    divE (mulT t) (invT t) a b = divE (mulT s) (invT s) a b := by
  by_cases hb0 : b = 0
  · simp only [hb0, divE_zero]
  simp only [divE, hb0, if_false, h.invT_eq hb]
  cases hinv : invT s b with
  | error _ => rfl
  | ok i => exact congrArg Except.ok (h.mulT_eq ha (invT_lt hinv))

theorem powE_eq (h : SameEntries s t) {a : Nat} (ha : a < 256) (e : Nat) :
    powE (mulT t) a e = powE (mulT s) a e := by
  induction e with
  | zero => rfl
  | succ e ih => rw [powE_succ, powE_succ, ih, h.mulT_eq (powE_mulT_lt s a e) ha]

end SameEntries

theorem elem_ok_lt {r : Word} {x : Nat} (h : elem r = .ok x) : x < 256 := by
  rcases elem_cases r with ⟨hr, he⟩ | ⟨_, he⟩
  · rw [he] at h; cases h; exact hr
  · rw [he] at h; cases h

theorem index_ok_mem {r : Word} {lo hi x : Nat} (h : index r lo hi = .ok x) : lo ≤ x ∧ x ≤ hi := by
  by_cases hr : lo ≤ r.toNat ∧ r.toNat ≤ hi
  · rw [index_of_mem hr] at h; cases h; exact hr
  · rw [index_of_not_mem hr] at h; cases h

/-- On element operands, functions that agree on elements give one outcome. -/
theorem withTwo_elem_congr {a b : Word} {f g : Nat → Nat → Except Err Nat}
    (h : ∀ x < 256, ∀ y < 256, f x y = g x y) : withTwo (elem a) (elem b) f = withTwo (elem a) (elem b) g := by
  cases ha : elem a with
  | error e => simp
  | ok x =>
    cases hb : elem b with
    | error e => rfl
    | ok y => simp [h x (elem_ok_lt ha) y (elem_ok_lt hb)]

/-- Functions that agree on the admitted operand give one outcome. -/
theorem withOne_congr {a : Except Err Nat} {f g : Nat → Except Err Nat} (h : ∀ x, a = .ok x → f x = g x) :
    withOne a f = withOne a g := by
  cases a with
  | error e => rfl
  | ok x => simp [h x rfl]

/-- The same machine with other table memories. -/
def State.withTables (s : State) (exp log : Memory) : State := { s with exp := exp, log := log }

/-- A command computes one outcome from table memories with the same entries: nine commands read no table, and the other
five read at indices below 255 (R49). -/
theorem exec_outcome_of_sameEntries (i : Instr) {s : State} {exp log : Memory}
    (h : SameEntries s (s.withTables exp log)) :
    ∃ o, exec i s = runCommand s o ∧ exec i (s.withTables exp log) = runCommand (s.withTables exp log) o := by
  cases i
  case rdexp =>
    refine ⟨_, rfl, congrArg (runCommand _) (withOne_congr fun i hi => ?_)⟩
    obtain ⟨-, hle⟩ := index_ok_mem hi
    rw [h.exp i (by omega)]
  case rdlog =>
    refine ⟨_, rfl, congrArg (runCommand _) (withOne_congr fun v hv => ?_)⟩
    obtain ⟨-, hle⟩ := index_ok_mem hv
    rw [h.log (v - 1) (by omega)]
  case mulT =>
    exact ⟨_, rfl, congrArg (runCommand _) (withTwo_elem_congr fun a ha b hb => congrArg _ (h.mulT_eq ha hb))⟩
  case invT => exact ⟨_, rfl, congrArg (runCommand _) (withOne_congr fun a ha => h.invT_eq (elem_ok_lt ha))⟩
  case divT => exact ⟨_, rfl, congrArg (runCommand _) (withTwo_elem_congr fun a ha b hb => h.divE_eq ha hb)⟩
  case powT =>
    exact ⟨_, rfl, congrArg (runCommand _) (withTwo_elem_congr fun a ha e _ => congrArg _ (h.powE_eq ha e))⟩
  all_goals exact ⟨_, rfl, rfl⟩

/-- The end of a command keeps the table memories, whatever they are. -/
theorem runCommand_withTables {s t : State} {r : Except Err Word} (exp log : Memory) (h : runCommand s r = .next t) :
    runCommand (s.withTables exp log) r = .next (t.withTables exp log) := by
  rcases runCommand_cases h with ⟨hr, rfl⟩ | ⟨hr, v, rfl, rfl⟩ | ⟨hr, e, rfl, rfl⟩
  · exact runCommand_notReady (s := s.withTables exp log) hr r
  · exact runCommand_ready (s := s.withTables exp log) hr (.ok v)
  · exact runCommand_ready (s := s.withTables exp log) hr (.error e)

/-- Settles O30: from both memories the command computes one outcome, and its end keeps the tables. -/
theorem commandsReadTablesInsideLength : Obligations.CommandsReadTablesInsideLength := by
  intro i s t exp log hsame h
  have hentries : SameEntries s (s.withTables exp log) :=
    ⟨fun k hk => (hsame k hk).1, fun k hk => (hsame k hk).2⟩
  obtain ⟨o, ho, ho'⟩ := exec_outcome_of_sameEntries i hentries
  exact ho'.trans (runCommand_withTables exp log (ho ▸ h))

end Sys2Proof.Machine

/-! ### The steps of an access at the port (20_memory.md R41, R43, R44, R46, R47, R52) -/

namespace Sys2Proof.Machine

/-- A slot's value is no matter of the port. -/
@[simp] theorem State.popped_slotValue (s : State) (rest : List PortEvent) (slot : Slot) :
    (s.popped rest).slotValue slot = s.slotValue slot := by cases slot <;> rfl

section
variable {s : State} {rest : List PortEvent} {off : Nat}

/-- At a legal base the next event is a 32-bit read of the slot at `off`: the step returns the slot's value (R43). -/
theorem step_read_slot (hc : s.config.wf = true) (h4 : off % 4 = 0) (hlt : off < 32)
    (hp : s.port = .access (.read (s.config.gfBase + off) 4) :: rest) :
    step s = .next { s with port := rest, rdata := some (s.slotValue (slotAt off)) } := by
  rw [step_cons hp, performEvent, performAccess_read (s := s.popped rest) (refusalOf_slot hc h4 hlt),
    State.popped_config, Nat.add_sub_cancel_left, State.popped_slotValue, State.popped]

/-- At a legal base the next event is a 32-bit write to the slot at `off`: the step is the write's effect there (R44). -/
theorem step_write_slot {v : Word} (hc : s.config.wf = true) (h4 : off % 4 = 0) (hlt : off < 32)
    (hp : s.port = .access (.write (s.config.gfBase + off) 4 v) :: rest) :
    step s = writeSlot (slotAt off) v { s with port := rest, rdata := none } := by
  rw [step_cons hp, performEvent, performAccess_write (s := s.popped rest) v (refusalOf_slot hc h4 hlt),
    State.popped_config, Nat.add_sub_cancel_left, State.popped]

/-- The next event is an access, read or write, that is refused whatever it carries: there is no step. -/
theorem step_refused {a : Access} {addr width : Nat} {r : Refusal}
    (ha : a = .read addr width ∨ ∃ v, a = .write addr width v) (hp : s.port = .access a :: rest)
    (hr : refusalOf s.config addr width = some r) : step s = .refused r := by
  obtain ⟨hread, hwrite⟩ := performAccess_refused (s := s.popped rest) hr
  rw [step_cons hp, performEvent]
  rcases ha with rfl | ⟨v, rfl⟩
  · exact hread
  · exact hwrite v

end

theorem refusalOf_width {c : Config} {addr width : Nat} (h : c.gfBase ≤ addr ∧ addr < c.gfBase + 32) (hw : width ≠ 4) :
    refusalOf c addr width = some .accessWidth := by
  simp [refusalOf, (inWindow_iff c addr).mpr h, hw]

theorem refusalOf_misaligned {c : Config} {addr : Nat} (h : c.gfBase ≤ addr ∧ addr < c.gfBase + 32)
    (ha : addr % 4 ≠ 0) : refusalOf c addr 4 = some .misaligned := by
  simp [refusalOf, (inWindow_iff c addr).mpr h, ha]

/-- Settles O36: each listed offset is an aligned slot of the window, with the listed value. -/
theorem readReturnsSlotValue : Obligations.ReadReturnsSlotValue := by
  intro s rest hc p hp hport
  have hslot : p.1 % 4 = 0 ∧ p.1 < 32 ∧ s.slotValue (slotAt p.1) = p.2 := by
    simp only [List.mem_cons, List.not_mem_nil, or_false] at hp
    rcases hp with rfl | rfl | rfl | rfl | rfl | rfl | rfl | rfl <;>
      simp [slotAt, Config.accessBytes, State.slotValue, State.status, statusWord]
  obtain ⟨h4, hlt, hvalue⟩ := hslot
  rw [step_read_slot hc h4 hlt hport, hvalue]

/-- Settles O37: OPA, OPB and CMD are at the first three offsets, and the other five offsets are slots that ignore a write. -/
theorem writeActsOnSlot : Obligations.WriteActsOnSlot := by
  intro s v rest hc
  refine ⟨step_write_slot hc rfl (by norm_num), step_write_slot hc rfl (by norm_num),
    step_write_slot hc rfl (by norm_num), fun off hoff hport => ?_⟩
  have hslot : off % 4 = 0 ∧ off < 32 ∧ ∀ t, writeSlot (slotAt off) v t = .next t := by
    simp only [List.mem_cons, List.not_mem_nil, or_false] at hoff
    rcases hoff with rfl | rfl | rfl | rfl | rfl <;> exact ⟨rfl, by norm_num, fun _ => rfl⟩
  obtain ⟨h4, hlt, hignored⟩ := hslot
  rw [step_write_slot hc h4 hlt hport, hignored]

/-- Settles O38: inside the window the width is looked at first, then the alignment. -/
theorem unadmittedAccessHasNoStep : Obligations.UnadmittedAccessHasNoStep := by
  intro s rest a addr width ha hp hlo hhi
  refine ⟨fun hw => step_refused ha hp (refusalOf_width ⟨hlo, hhi⟩ hw), fun hw hmis => ?_⟩
  subst hw
  exact step_refused ha hp (refusalOf_misaligned ⟨hlo, hhi⟩ hmis)

/-- Settles O39: outside the window no width is looked at; an access cut by a reset is one event, which is refused. -/
theorem foreignAccessHasNoStep : Obligations.ForeignAccessHasNoStep := by
  refine ⟨fun s rest a addr width ha hp hout => step_refused ha hp (refusalOf_outside ?_ width), fun s rest a hp => ?_⟩
  · omega
  · rw [step_cons hp, performEvent]

/-- Settles O40: the write's step stores `v` in the operand register, and the read's step returns that register. -/
theorem readReturnsPrecedingWrite : Obligations.ReadReturnsPrecedingWrite := by
  intro s v rest off hc hoff hp
  rcases hoff with rfl | rfl
  · exact ⟨_, _, step_write_slot hc rfl (by norm_num) hp,
      step_read_slot (s := { s with port := _, rdata := none, opa := v }) hc rfl (by norm_num) rfl, rfl⟩
  · exact ⟨_, _, step_write_slot hc rfl (by norm_num) hp,
      step_read_slot (s := { s with port := _, rdata := none, opb := v }) hc rfl (by norm_num) rfl, rfl⟩

end Sys2Proof.Machine

/-! ### Command words (30_encoding.md R60, R62, R63, R64, R65) -/

namespace Sys2Proof

/-- The reserved and illegal words, as R64 lists them: a bit above bit 7 is set, or OP is outside the opcode map. -/
abbrev IllegalWord (w : Word) : Prop :=
  w.extractLsb 31 8 ≠ 0 ∨ opField w = 0x00 ∨ (0x07 ≤ opField w ∧ opField w ≤ 0x0F) ∨
    (0x14 ≤ opField w ∧ opField w ≤ 0x17) ∨ 0x1C ≤ opField w

/-- A word whose reserved field is zero is its OP field (R60). -/
theorem eq_ofNat_opField {w : Word} (h : reservedClear w = true) : w = BitVec.ofNat 32 (opField w) := by
  have hrsv : w.extractLsb 31 8 = 0#24 := by simpa [reservedClear] using h
  have hhigh : w.toNat / 2 ^ 8 % 2 ^ 24 = 0 := by
    simpa [Nat.shiftRight_eq_div_pow] using congrArg BitVec.toNat hrsv
  have hlow : opField w = w.toNat % 2 ^ 8 := by simp [opField]
  apply BitVec.eq_of_toNat_eq
  rw [BitVec.toNat_ofNat, hlow]
  omega

/-- All that `decode` can do: the word is a command's word and decodes to that command, or it is illegal and is rejected. -/
theorem decode_cases (w : Word) :
    (∃ i, w = encode i ∧ decode w = .ok i) ∨ (IllegalWord w ∧ ∃ e, decode w = .error e) := by
  unfold decode
  split
  case isTrue hrsv =>
    have hw := eq_ofNat_opField hrsv
    split
    case h_15 =>
      refine .inr ⟨.inr ?_, _, rfl⟩
      -- `omega` reads `≠`, not the `→ False` that `split` leaves
      simp only [imp_false] at *
      omega
    all_goals
      next hop => exact .inl ⟨_, by rw [hw, hop]; rfl, rfl⟩
  case isFalse hrsv =>
    refine .inr ⟨.inl fun h => hrsv ?_, _, rfl⟩
    simpa [reservedClear] using h

theorem decode_encode (i : Instr) : decode (encode i) = .ok i := by cases i <;> rfl

theorem not_illegalWord_encode (i : Instr) : ¬IllegalWord (encode i) := by cases i <;> decide

/-- Settles O15: `decode_cases` gives a decoded word as the command's word, and `decode_encode` is the way back. -/
theorem decodeInvertsOpcodeMap : Obligations.DecodeInvertsOpcodeMap := by
  refine ⟨fun w i => ⟨fun h => ?_, fun h => h ▸ decode_encode i⟩, ?_⟩
  · rcases decode_cases w with ⟨j, hw, hj⟩ | ⟨_, e, he⟩
    · cases h.symm.trans hj
      exact hw
    · cases h.symm.trans he
  · decide

theorem decode_error_iff (w : Word) : (∃ e, decode w = .error e) ↔ IllegalWord w := by
  rcases decode_cases w with ⟨i, rfl, hi⟩ | ⟨hill, herr⟩
  · exact ⟨fun ⟨_, he⟩ => (nomatch hi.symm.trans he), fun hill => absurd hill (not_illegalWord_encode i)⟩
  · exact ⟨fun _ => hill, fun _ => herr⟩

/-- The fields of a word of the engine group, for each of the eight (R60). -/
theorem groupWord_fields : ∀ (eng : BitVec 1) (fn : BitVec 2),
    (groupWord eng fn).extractLsb 7 4 = 0b0001#4 ∧ (groupWord eng fn).getLsbD 2 = false ∧
    (groupWord eng fn).getLsbD 3 = eng.getLsbD 0 := by
  decide

/-- The commands of the engine group, by the `engine` column of R63: the direct ones, then those of the table engine. -/
abbrev engineGroup : List Instr := [.mulD, .invD, .divD, .powD, .mulT, .invT, .divT, .powT]

/-- A command of the engine group is encoded by its engine's bit; any other command's word has OP[7:4] = 0 (R62, R63). -/
theorem encode_cases (i : Instr) :
    (i ∈ engineGroup ∧ engineOf i = .direct ∧ ∃ fn, encode i = groupWord 0 fn) ∨
    (i ∈ engineGroup ∧ engineOf i = .table ∧ ∃ fn, encode i = groupWord 1 fn) ∨
    (i ∉ engineGroup ∧ (encode i).extractLsb 7 4 = 0#4) := by
  cases i
  case mulD | invD | divD | powD => exact .inl ⟨by decide, rfl, _, rfl⟩
  case mulT | invT | divT | powT => exact .inr (.inl ⟨by decide, rfl, _, rfl⟩)
  all_goals exact .inr (.inr (by decide))

/-- Settles O17: a word of the group carries its engine in bit 3, and no other word has OP[7:4] = 1. -/
theorem engineBitNamesEngine : Obligations.EngineBitNamesEngine := by
  intro i
  rcases encode_cases i with ⟨hi, heng, fn, hw⟩ | ⟨hi, heng, fn, hw⟩ | ⟨hi, hgrp⟩
  · obtain ⟨hgrp, h2, h3⟩ := groupWord_fields 0 fn
    rw [hw, heng]
    exact ⟨iff_of_true hgrp hi, fun _ => ⟨h2, by rw [h3]; decide⟩⟩
  · obtain ⟨hgrp, h2, h3⟩ := groupWord_fields 1 fn
    rw [hw, heng]
    exact ⟨iff_of_true hgrp hi, fun _ => ⟨h2, by rw [h3]; decide⟩⟩
  · rw [hgrp]
    exact ⟨iff_of_false (by decide) hi, fun h => absurd h (by decide)⟩

end Sys2Proof

/-! ### The step of a CMD write (30_encoding.md R64, R66), and commands that ignore OPB (R61) -/

namespace Sys2Proof.Machine

theorem executeCommand_of_ok {w : Word} {i : Instr} (h : decode w = .ok i) (s : State) :
    executeCommand w s = exec i s := by rw [executeCommand, h]

theorem executeCommand_of_error {w : Word} {e : DecodeReject} (h : decode w = .error e) (s : State) :
    executeCommand w s = .next (s.raise .illegal) := by rw [executeCommand, h]

/-- At a legal base a 32-bit write of `w` to CMD is `execute_command(w)` (R44, R66). -/
theorem step_write_cmd {s : State} {w : Word} {rest : List PortEvent} (hc : s.config.wf = true)
    (hp : s.port = .access (.write (s.config.gfBase + 0x08) 4 w) :: rest) :
    step s = executeCommand w { s with port := rest, rdata := none } :=
  step_write_slot hc rfl (by norm_num) hp

/-- Settles O16: R64's words are the ones `decode` rejects, and `execute_command` raises ILLEGAL on a rejected word before it
looks at READY. -/
theorem illegalWordOnlySetsEcode : Obligations.IllegalWordOnlySetsEcode := by
  refine ⟨decode_error_iff, fun s w rest hc hp ⟨e, he⟩ => ?_⟩
  rw [step_write_cmd hc hp, executeCommand_of_error he]
  rfl

/-- Settles O19: the write's step is `execute_command`, which runs the decoded command. -/
theorem stepRunsDecodedCommand : Obligations.StepRunsDecodedCommand := by
  intro s w i rest hc hp hi
  rw [step_write_cmd hc hp, executeCommand_of_ok hi]

/-- The same machine with another value in OPB. -/
def State.withOpb (s : State) (v : Word) : State := { s with opb := v }

/-- A one-operand command computes one outcome, whatever OPB holds (R61). -/
theorem exec_outcome_of_opb {i : Instr} (hi : i ∈ [Instr.invD, .invT, .rdexp, .rdlog]) (s : State) (v : Word) :
    ∃ o, exec i s = runCommand s o ∧ exec i (s.withOpb v) = runCommand (s.withOpb v) o := by
  simp only [List.mem_cons, List.not_mem_nil, or_false] at hi
  rcases hi with rfl | rfl | rfl | rfl <;> exact ⟨_, rfl, rfl⟩

/-- The end of a command keeps OPB, whatever it holds. -/
theorem runCommand_withOpb {s t : State} {r : Except Err Word} (v : Word) (h : runCommand s r = .next t) :
    runCommand (s.withOpb v) r = .next (t.withOpb v) := by
  rcases runCommand_cases h with ⟨hr, rfl⟩ | ⟨hr, u, rfl, rfl⟩ | ⟨hr, e, rfl, rfl⟩
  · exact runCommand_notReady (s := s.withOpb v) hr r
  · exact runCommand_ready (s := s.withOpb v) hr (.ok u)
  · exact runCommand_ready (s := s.withOpb v) hr (.error e)

/-- Settles O29: with either OPB the command computes one outcome, and its end keeps OPB. -/
theorem oneOperandCommandsIgnoreOpb : Obligations.OneOperandCommandsIgnoreOpb := by
  intro i hi s t v h
  obtain ⟨o, ho, ho'⟩ := exec_outcome_of_opb hi s v
  exact ho'.trans (runCommand_withOpb v (ho ▸ h))

end Sys2Proof.Machine

/-! ### The direct multiply is a field multiply (41_direct_engine.md R105, R106; 40_element_ops.md R88)

`mulLoop` keeps sums of its last two arguments and commutes with `doubleReduce`. So multiplying by `a` commutes with multiplying
by `b`, and, 1 being the identity, the multiply is commutative and associative. -/

namespace Sys2Proof.Machine

theorem doubleReduce_eq_xor (b : Nat) :
    doubleReduce b = (b <<< 1) ^^^ (bif (b <<< 1).testBit 8 then Config.poly else 0) := by
  rw [doubleReduce]
  cases (b <<< 1).testBit 8
  · exact (Nat.xor_zero _).symm
  · rfl

@[simp] theorem doubleReduce_zero : doubleReduce 0 = 0 := rfl

/-- Doubling keeps sums. -/
theorem doubleReduce_xor (b c : Nat) : doubleReduce (b ^^^ c) = doubleReduce b ^^^ doubleReduce c := by
  have hpoly : (bif ((b ^^^ c) <<< 1).testBit 8 then Config.poly else 0) =
      (bif (b <<< 1).testBit 8 then Config.poly else 0) ^^^ (bif (c <<< 1).testBit 8 then Config.poly else 0) := by
    rw [Nat.shiftLeft_xor_distrib, Nat.testBit_xor]
    cases (b <<< 1).testBit 8 <;> cases (c <<< 1).testBit 8 <;> rfl
  rw [doubleReduce_eq_xor, doubleReduce_eq_xor, doubleReduce_eq_xor, hpoly, Nat.shiftLeft_xor_distrib]
  ac_rfl

/-- The loop of the multiply keeps sums of the second factor and the accumulator. -/
theorem mulLoop_xor (k : Nat) : ∀ a b c p q : Nat,
    mulLoop k a (b ^^^ c) (p ^^^ q) = mulLoop k a b p ^^^ mulLoop k a c q := by
  induction k with
  | zero => intros; rfl
  | succ k ih =>
    intro a b c p q
    rw [mulLoop_succ, mulLoop_succ, mulLoop_succ, doubleReduce_xor, ← ih]
    cases a.testBit 0
    · rfl
    · congr 1
      simp only [cond_true]
      ac_rfl

theorem mulLoop_doubleReduce (k : Nat) : ∀ a b p : Nat,
    mulLoop k a (doubleReduce b) (doubleReduce p) = doubleReduce (mulLoop k a b p) := by
  induction k with
  | zero => intros; rfl
  | succ k ih =>
    intro a b p
    rw [mulLoop_succ, mulLoop_succ, ← ih]
    cases a.testBit 0
    · rfl
    · rw [cond_true, cond_true, doubleReduce_xor]

theorem mulD_xor_right (a b c : Nat) : mulD a (b ^^^ c) = mulD a b ^^^ mulD a c :=
  mulLoop_xor Config.mulIters a b c 0 0

@[simp] theorem mulD_zero_right (a : Nat) : mulD a 0 = 0 := by
  have h : mulD a (0 ^^^ 0) = mulD a 0 ^^^ mulD a 0 := mulD_xor_right a 0 0
  rwa [Nat.xor_self, Nat.xor_self] at h

theorem mulD_doubleReduce (a b : Nat) : mulD a (doubleReduce b) = doubleReduce (mulD a b) :=
  mulLoop_doubleReduce Config.mulIters a b 0

/-- Multiplying by `a` goes through the loop of another multiply. -/
theorem mulD_mulLoop (a k : Nat) : ∀ b c p : Nat, mulD a (mulLoop k b c p) = mulLoop k b (mulD a c) (mulD a p) := by
  induction k with
  | zero => intros; rfl
  | succ k ih =>
    intro b c p
    rw [mulLoop_succ, mulLoop_succ, ih, mulD_doubleReduce]
    cases b.testBit 0
    · rfl
    · rw [cond_true, cond_true, mulD_xor_right]

theorem mulD_left_comm (a b c : Nat) : mulD a (mulD b c) = mulD b (mulD a c) := by
  have h := mulD_mulLoop a Config.mulIters b c 0
  rwa [mulD_zero_right] at h

theorem mulD_lt (a : Nat) {b : Nat} (hb : b < 256) : mulD a b < 256 :=
  mulLoop_lt Config.mulIters a b 0 hb (by norm_num)

theorem mulD_one_right {a : Nat} (ha : a < 256) : mulD a 1 = a := by
  have h : ∀ x < 256, mulD x 1 = x := by decide +kernel
  exact h a ha

theorem mulD_comm {a b : Nat} (ha : a < 256) (hb : b < 256) : mulD a b = mulD b a := by
  calc mulD a b = mulD a (mulD b 1) := by rw [mulD_one_right hb]
    _ = mulD b (mulD a 1) := mulD_left_comm a b 1
    _ = mulD b a := by rw [mulD_one_right ha]

theorem mulD_one_left {a : Nat} (ha : a < 256) : mulD 1 a = a := by
  rw [mulD_comm (by norm_num) ha, mulD_one_right ha]

theorem mulD_zero_left {a : Nat} (ha : a < 256) : mulD 0 a = 0 := by
  rw [mulD_comm (by norm_num) ha, mulD_zero_right]

theorem mulD_assoc (a : Nat) {b c : Nat} (hb : b < 256) (hc : c < 256) :
    mulD (mulD a b) c = mulD a (mulD b c) := by
  calc mulD (mulD a b) c = mulD c (mulD a b) := mulD_comm (mulD_lt a hb) hc
    _ = mulD a (mulD c b) := mulD_left_comm c a b
    _ = mulD a (mulD b c) := by rw [mulD_comm hc hb]

theorem mulD_xor_left {a b c : Nat} (ha : a < 256) (hb : b < 256) (hc : c < 256) :
    mulD (b ^^^ c) a = mulD b a ^^^ mulD c a := by
  rw [mulD_comm (xor_lt_256 hb hc) ha, mulD_xor_right, mulD_comm ha hb, mulD_comm ha hc]

/-- An element has at most one inverse. -/
theorem mulD_eq_one_unique {a i j : Nat} (ha : a < 256) (hi : i < 256) (hj : j < 256) (hai : mulD a i = 1)
    (haj : mulD a j = 1) : j = i := by
  calc j = mulD j (mulD a i) := by rw [hai, mulD_one_right hj]
    _ = mulD (mulD a j) i := by rw [← mulD_assoc j ha hi, mulD_comm hj ha]
    _ = i := by rw [haj, mulD_one_left hi]

end Sys2Proof.Machine

/-! ### The direct inverse, quotient and power (41_direct_engine.md R110, R111; 40_element_ops.md R82, R85) -/

namespace Sys2Proof.Machine

/-- For each of the 255 nonzero elements the inverter's loop ends with gcd 1, and its coefficient is an inverse (R111). -/
theorem euclidOf_inverse : ∀ a < 256, a ≠ 0 →
    (euclidOf a).oldR = 1 ∧ mulD a ((euclidOf a).oldT &&& 0xFF) = 1 := by decide +kernel

theorem invD_exists {a : Nat} (ha : a < 256) (h0 : a ≠ 0) : ∃ i < 256, invD a = .ok i ∧ mulD a i = 1 := by
  obtain ⟨hgcd, hmul⟩ := euclidOf_inverse a ha h0
  exact ⟨_, Nat.and_lt_two_pow (n := 8) _ (by norm_num), by rw [invD, if_neg h0, if_pos hgcd], hmul⟩

/-- What multiplies with `a` to 1 is what the direct engine answers as the inverse of `a`. -/
theorem invD_of_mulD_eq_one {a j : Nat} (ha : a < 256) (hj : j < 256) (h : mulD a j = 1) : invD a = .ok j := by
  have h0 : a ≠ 0 := by
    rintro rfl
    rw [mulD_zero_left hj] at h
    cases h
  obtain ⟨i, hi, hinv, hmul⟩ := invD_exists ha h0
  rw [hinv, mulD_eq_one_unique ha hi hj hmul h]

/-- A product divided by its nonzero second factor is its first factor. -/
theorem divD_mulD_cancel {a b : Nat} (ha : a < 256) (hb : b < 256) (h0 : b ≠ 0) :
    divE mulD invD (mulD a b) b = .ok a := by
  obtain ⟨i, hi, hinv, hmul⟩ := invD_exists hb h0
  rw [divE_ok h0 hinv, mulD_assoc a hb hi, hmul, mulD_one_right ha]

theorem powD_lt {a : Nat} (ha : a < 256) : ∀ e, powE mulD a e < 256
  | 0 => by norm_num
  | e + 1 => mulD_lt (powE mulD a e) ha

theorem powD_one {a : Nat} (ha : a < 256) : powE mulD a 1 = a := mulD_one_left ha

theorem powD_of_one (e : Nat) : powE mulD 1 e = 1 := by
  induction e with
  | zero => rfl
  | succ e ih => rw [powE_succ, ih]; exact mulD_one_right (by norm_num)

theorem powD_of_zero {e : Nat} (he : e ≠ 0) : powE mulD 0 e = 0 := by
  obtain ⟨n, rfl⟩ := Nat.exists_eq_succ_of_ne_zero he
  exact mulD_zero_right _

theorem powD_add {a : Nat} (ha : a < 256) (m n : Nat) :
    powE mulD a (m + n) = mulD (powE mulD a m) (powE mulD a n) := by
  induction n with
  | zero => exact (mulD_one_right (powD_lt ha m)).symm
  | succ n ih => rw [← Nat.add_assoc, powE_succ, powE_succ, ih, mulD_assoc _ (powD_lt ha n) ha]

theorem powD_mul {a : Nat} (ha : a < 256) (m n : Nat) : powE mulD a (m * n) = powE mulD (powE mulD a m) n := by
  induction n with
  | zero => rfl
  | succ n ih => rw [Nat.mul_succ, powD_add ha, ih, powE_succ]

end Sys2Proof.Machine

/-! ### Logarithms: every nonzero element is a power of the generator (42_table_engine.md R133, R134) -/

namespace Sys2Proof.Machine

theorem getD_generatorValues (k : Nat) : ∀ n i : Nat, i < k →
    (generatorValues k (powE mulD Config.gen n)).getD i 0 = powE mulD Config.gen (n + i) := by
  induction k with
  | zero => intro n i hi; omega
  | succ k ih =>
    intro n i hi
    cases i with
    | zero => rfl
    | succ i =>
      rw [generatorValues, List.getD_cons_succ, ← powE_succ mulD, ih (n + 1) i (by omega)]
      congr 1
      omega

/-- The listed EXP holds the powers of the generator. -/
theorem expContents_eq_powD {i : Nat} (hi : i < 255) : expContents.getD i 0 = powE mulD Config.gen i := by
  have h := getD_generatorValues 255 0 i hi
  rwa [Nat.zero_add, powE_zero, generatorValues_eq_expContents] at h

theorem powD_gen_order : powE mulD Config.gen 255 = 1 := by decide +kernel

/-- Exponents of the generator count modulo ORDER. -/
theorem powD_gen_mod (e : Nat) : powE mulD Config.gen (e % 255) = powE mulD Config.gen e := by
  have hgen : Config.gen < 256 := by norm_num
  conv_rhs => rw [← Nat.div_add_mod e 255, powD_add hgen, powD_mul hgen, powD_gen_order, powD_of_one,
    mulD_one_left (powD_lt hgen _)]

/-- The listed LOG inverts the listed EXP. -/
theorem logContents_inverts : ∀ a < 256, a ≠ 0 →
    logContents.getD (a - 1) 0 < 255 ∧ expContents.getD (logContents.getD (a - 1) 0) 0 = a := by decide +kernel

theorem powD_gen_log {a : Nat} (ha : a < 256) (h0 : a ≠ 0) :
    powE mulD Config.gen (logContents.getD (a - 1) 0) = a := by
  obtain ⟨hlt, hexp⟩ := logContents_inverts a ha h0
  rw [← expContents_eq_powD hlt, hexp]

/-- The 255th power of a nonzero element is 1. -/
theorem powD_order {a : Nat} (ha : a < 256) (h0 : a ≠ 0) : powE mulD a 255 = 1 := by
  have hgen : Config.gen < 256 := by norm_num
  rw [← powD_gen_log ha h0, ← powD_mul hgen, ← powD_gen_mod, Nat.mul_mod_left, powE_zero]

theorem invD_eq_powD {a : Nat} (ha : a < 256) (h0 : a ≠ 0) : invD a = .ok (powE mulD a 254) := by
  refine invD_of_mulD_eq_one ha (powD_lt ha 254) ?_
  rw [mulD_comm ha (powD_lt ha 254), ← powE_succ mulD, powD_order ha h0]

end Sys2Proof.Machine

/-! ### The table engine computes what the direct engine computes (40_element_ops.md R89) -/

namespace Sys2Proof.Machine

namespace TablesBuilt

variable {s : State}

/-- Over built tables, an EXP entry is a power of the generator. -/
theorem expEntry_mod (h : TablesBuilt s) (e : Nat) : (s.expEntry (e % 255)).toNat = powE mulD Config.gen e := by
  have hlt : e % 255 < 255 := Nat.mod_lt _ (by norm_num)
  rw [h.exp _ hlt, expContents_eq_powD hlt, powD_gen_mod]

/-- Over built tables, a LOG entry is a logarithm. -/
theorem powD_logEntry (h : TablesBuilt s) {a : Nat} (ha : a < 256) (h0 : a ≠ 0) :
    powE mulD Config.gen (s.logEntry (a - 1)).toNat = a := by
  rw [h.log (a - 1) (by omega), powD_gen_log ha h0]

end TablesBuilt

/-- On elements, the engine `mul`, `inv` multiplies and inverts as the direct engine. -/
structure AgreesWithDirect (mul : Nat → Nat → Nat) (inv : Nat → Except Err Nat) : Prop where
  mul : ∀ a < 256, ∀ b < 256, mul a b = mulD a b
  inv : ∀ a < 256, inv a = invD a

theorem TablesBuilt.mulT_eq_mulD {s : State} (h : TablesBuilt s) {a b : Nat} (ha : a < 256) (hb : b < 256) :
    mulT s a b = mulD a b := by
  rcases eq_or_ne a 0 with rfl | ha0
  · rw [mulT_zero_left, mulD_zero_left hb]
  rcases eq_or_ne b 0 with rfl | hb0
  · rw [mulT_zero_right, mulD_zero_right]
  rw [mulT_of_ne_zero s ha0 hb0, h.expEntry_mod, powD_add (by norm_num), h.powD_logEntry ha ha0, h.powD_logEntry hb hb0]

theorem TablesBuilt.invT_eq_invD {s : State} (h : TablesBuilt s) {a : Nat} (ha : a < 256) : invT s a = invD a := by
  rcases eq_or_ne a 0 with rfl | h0
  · rw [invT_zero, invD_zero]
  rw [invT_of_ne_zero s h0, h.expEntry_mod]
  refine (invD_of_mulD_eq_one ha (powD_lt (by norm_num) _) ?_).symm
  have hlog : (s.logEntry (a - 1)).toNat ≤ 255 := Nat.le_of_lt_succ (BitVec.isLt _)
  calc mulD a (powE mulD Config.gen (255 - (s.logEntry (a - 1)).toNat))
    _ = powE mulD Config.gen ((s.logEntry (a - 1)).toNat + (255 - (s.logEntry (a - 1)).toNat)) := by
      rw [powD_add (by norm_num), h.powD_logEntry ha h0]
    _ = 1 := by rw [Nat.add_sub_cancel' hlog, powD_gen_order]

namespace AgreesWithDirect

theorem direct : AgreesWithDirect mulD invD := ⟨fun _ _ _ _ => rfl, fun _ _ => rfl⟩

theorem table {s : State} (h : TablesBuilt s) : AgreesWithDirect (mulT s) (invT s) :=
  ⟨fun _ ha _ hb => h.mulT_eq_mulD ha hb, fun _ ha => h.invT_eq_invD ha⟩

variable {mul : Nat → Nat → Nat} {inv : Nat → Except Err Nat}

theorem mul_lt (h : AgreesWithDirect mul inv) {a b : Nat} (ha : a < 256) (hb : b < 256) : mul a b < 256 := by
  rw [h.mul a ha b hb]
  exact mulD_lt a hb

theorem divE_eq (h : AgreesWithDirect mul inv) {a b : Nat} (ha : a < 256) (hb : b < 256) :
    divE mul inv a b = divE mulD invD a b := by
  by_cases h0 : b = 0
  · rw [h0, divE_zero, divE_zero]
  obtain ⟨i, hi, hinv, -⟩ := invD_exists hb h0
  rw [divE_ok h0 hinv, divE_ok h0 ((h.inv b hb).trans hinv), h.mul a ha i hi]

theorem powE_eq (h : AgreesWithDirect mul inv) {a : Nat} (ha : a < 256) (e : Nat) : powE mul a e = powE mulD a e := by
  induction e with
  | zero => rfl
  | succ e ih => rw [powE_succ, powE_succ, ih, h.mul _ (powD_lt ha e) a ha]

/-- A nonzero element has exactly one inverse, and it is what the engine's invert gives (R88). -/
theorem inverse (h : AgreesWithDirect mul inv) {a : Nat} (ha : a < 256) (h0 : a ≠ 0) :
    ∃ i < 256, inv a = .ok i ∧ mul a i = 1 ∧ ∀ j < 256, mul a j = 1 → j = i := by
  obtain ⟨i, hi, hinv, hmul⟩ := invD_exists ha h0
  refine ⟨i, hi, (h.inv a ha).trans hinv, (h.mul a ha i hi).trans hmul, fun j hj hj1 => ?_⟩
  exact mulD_eq_one_unique ha hi hj hmul ((h.mul a ha j hj).symm.trans hj1)

end AgreesWithDirect

/-- Settles O52: both engines agree with the direct one, whose multiply is commutative, associative and distributive and has
inverses. -/
theorem fieldLawsHold : Obligations.FieldLawsHold := by
  intro mul inv hengine a ha b hb c hc
  have h : AgreesWithDirect mul inv := by
    rcases hengine with ⟨rfl, rfl⟩ | ⟨s, hs, rfl, rfl⟩
    · exact .direct
    · exact .table hs
  have hbc : b ^^^ c < 256 := xor_lt_256 hb hc
  refine ⟨xor_lt_256 ha hb, h.mul_lt ha hb, Nat.xor_comm a b, ?comm, Nat.xor_assoc a b c, ?assoc, ?distribLeft,
    ?distribRight, ⟨fun hid => ?zeroUnique, ?zeroNeutral⟩, ?one, Nat.xor_self a, h.inverse ha, Nat.xor_xor_cancel_right a b,
    fun h0 => ?divCancel, rfl, rfl, fun _ => rfl⟩
  case comm => rw [h.mul a ha b hb, h.mul b hb a ha, mulD_comm ha hb]
  case assoc =>
    rw [h.mul _ (h.mul_lt ha hb) c hc, h.mul a ha _ (h.mul_lt hb hc), h.mul a ha b hb, h.mul b hb c hc,
      mulD_assoc a hb hc]
  case distribLeft => rw [h.mul a ha _ hbc, h.mul a ha b hb, h.mul a ha c hc, mulD_xor_right]
  case distribRight => rw [h.mul _ hbc a ha, h.mul b hb a ha, h.mul c hc a ha, mulD_xor_left ha hb hc]
  case zeroUnique => simpa using hid 0 (by norm_num)
  case zeroNeutral =>
    rintro rfl x -
    exact Nat.xor_zero x
  case one => rw [h.mul a ha 1 (by norm_num), mulD_one_right ha]
  case divCancel => rw [h.divE_eq (h.mul_lt ha hb) hb, h.mul a ha b hb, divD_mulD_cancel ha hb h0]

/-- Commands whose outcomes are the same once READY = 1 end the same. -/
theorem runCommand_congr {s : State} {r r' : Except Err Word} (h : s.ready = true → r = r') :
    runCommand s r = runCommand s r' := by
  cases hr : s.ready with
  | false => rw [runCommand_notReady hr, runCommand_notReady hr]
  | true => rw [h hr]

/-- Settles O50: before READY both report NOT_READY; with built tables the engines' functions agree on elements. -/
theorem enginesAgree : Obligations.EnginesAgree := by
  intro s hs
  have h (hr : s.ready = true) : AgreesWithDirect (mulT s) (invT s) := .table (hs hr)
  refine ⟨runCommand_congr fun hr => ?mul, runCommand_congr fun hr => ?inv, runCommand_congr fun hr => ?div,
    runCommand_congr fun hr => ?pow⟩
  case mul => exact withTwo_elem_congr fun a ha b hb => congrArg Except.ok ((h hr).mul a ha b hb).symm
  case inv => exact withOne_congr fun a ha => ((h hr).inv a (elem_ok_lt ha)).symm
  case div => exact withTwo_elem_congr fun a ha b hb => ((h hr).divE_eq ha hb).symm
  case pow => exact withTwo_elem_congr fun a ha e _ => congrArg Except.ok ((h hr).powE_eq ha e).symm

end Sys2Proof.Machine

/-! ### The commands on two elements (40_element_ops.md R80, R81, R83, R84, R86, R87) -/

namespace Sys2Proof.Machine

section
variable {s : State} {f : Nat → Nat → Except Err Nat}

/-- On two elements a command completes with the result of its function. -/
theorem runCommand_elems_ok {n : Nat} {w : Word} (hr : s.ready = true) (ha : IsElem s.opa) (hb : IsElem s.opb)
    (hf : f s.opa.toNat s.opb.toNat = .ok n) (hw : toResult n = w) :
    runCommand s (withTwo (elem s.opa) (elem s.opb) f) = .next { s with res := w, ecode := 0 } := by
  rw [elem_of_lt ha, elem_of_lt hb, withTwo_ok, hf, map_toResult_ok, hw, runCommand_ok hr]

theorem runCommand_elems_range (hr : s.ready = true) (h : ¬(IsElem s.opa ∧ IsElem s.opb)) :
    runCommand s (withTwo (elem s.opa) (elem s.opb) f) = .next { s with ecode := 3 } := by
  rw [withTwo_elem_range h, runCommand_error hr, Err.code]

/-- A quotient by zero is DIVZERO, whichever engine divides (R82). -/
theorem runCommand_divE_zero {mul : Nat → Nat → Nat} {inv : Nat → Except Err Nat} (hr : s.ready = true)
    (ha : IsElem s.opa) (hb0 : s.opb = 0) :
    runCommand s (withTwo (elem s.opa) (elem s.opb) (divE mul inv)) = .next { s with ecode := 4 } := by
  have hb : elem s.opb = .ok 0 := by rw [hb0, elem_zero]
  rw [elem_of_lt ha, hb, withTwo_ok, divE_zero, map_toResult_error, runCommand_error hr, Err.code]

/-- ADD completes with the exclusive or, as a word (R80). -/
theorem exec_add_elems {w : Word} (hr : s.ready = true) (ha : IsElem s.opa) (hb : IsElem s.opb)
    (hw : s.opa ^^^ s.opb = w) : exec .add s = .next { s with res := w, ecode := 0 } :=
  runCommand_elems_ok hr ha hb rfl (by rw [← BitVec.toNat_xor, toResult_word, hw])

end

theorem isElem_xor {a b : Word} (ha : IsElem a) (hb : IsElem b) : IsElem (a ^^^ b) := by
  rw [IsElem, BitVec.toNat_xor]
  exact xor_lt_256 ha hb

/-- Settles O1: the exclusive or of the operands' values is the value of their exclusive or. -/
theorem addXorsElements : Obligations.AddXorsElements := by
  refine ⟨rfl, fun s hr => ⟨fun ha hb => ⟨exec_add_elems hr ha hb rfl, isElem_xor ha hb, fun heq => ?self, fun h0 => ?zero⟩,
    runCommand_elems_range hr⟩⟩
  case self => exact exec_add_elems hr ha hb (by rw [heq]; exact BitVec.xor_self)
  case zero => exact exec_add_elems hr ha hb (by rw [h0]; exact BitVec.xor_zero)

/-- Settles O2: SUB is ADD, and the exclusive or undoes itself. -/
theorem subUndoesAdd : Obligations.SubUndoesAdd := by
  refine ⟨rfl, fun s => ⟨rfl, fun hr => ⟨fun ha hb => ⟨exec_add_elems hr ha hb rfl, ?undo, fun heq => ?self⟩,
    runCommand_elems_range hr⟩⟩⟩
  case undo =>
    rintro t rfl
    have hxor : (s.opa ^^^ s.opb) ^^^ s.opb = s.opa := by rw [BitVec.xor_assoc, BitVec.xor_self, BitVec.xor_zero]
    exact exec_add_elems (s := { s with opa := s.opa ^^^ s.opb }) hr (isElem_xor ha hb) hb hxor
  case self => exact exec_add_elems hr ha hb (by rw [heq]; exact BitVec.xor_self)

theorem toNat_ne_zero {w : Word} (h : w ≠ 0) : w.toNat ≠ 0 := fun h0 => h (BitVec.eq_of_toNat_eq h0)

/-- DIV.D gives `q` when the dividend is `q` times the nonzero divisor (R82). -/
theorem exec_divD_of_mulD_eq {s : State} {q : Nat} {w : Word} (hr : s.ready = true) (ha : IsElem s.opa) (hb : IsElem s.opb)
    (h0 : s.opb ≠ 0) (hq : q < 256) (hmul : mulD q s.opb.toNat = s.opa.toNat) (hw : toResult q = w) :
    exec .divD s = .next { s with res := w, ecode := 0 } :=
  runCommand_elems_ok hr ha hb (hmul ▸ divD_mulD_cancel hq hb (toNat_ne_zero h0)) hw

/-- Settles O9: every corner case names a quotient whose product with the divisor is the dividend. -/
theorem divDMultipliesByInverse : Obligations.DivDMultipliesByInverse := by
  refine ⟨rfl, fun s hr => ⟨fun ha hb h0 => ⟨?inverse, fun ha0 => ?zero, fun hb1 => ?one, fun heq => ?self, ?product⟩,
    fun ha hb0 => runCommand_divE_zero hr ha hb0, runCommand_elems_range hr⟩⟩
  case inverse =>
    obtain ⟨i, hi, hinv, -⟩ := invD_exists hb (toNat_ne_zero h0)
    have hdiv : exec .divD s = .next { s with res := toResult (mulD s.opa.toNat i), ecode := 0 } :=
      runCommand_elems_ok hr ha hb (divE_ok (toNat_ne_zero h0) hinv _) rfl
    refine ⟨i, hinv, hdiv, fun ha1 => ?_⟩
    rw [hdiv, ha1, show (1 : Word).toNat = 1 from rfl, mulD_one_left hi]
    rfl
  case zero => exact exec_divD_of_mulD_eq hr ha hb h0 (by norm_num) (by rw [mulD_zero_left hb, ha0]; rfl) rfl
  case one =>
    exact exec_divD_of_mulD_eq hr ha hb h0 ha (by rw [hb1]; exact mulD_one_right ha) (toResult_word _)
  case self => exact exec_divD_of_mulD_eq hr ha hb h0 (by norm_num) (by rw [mulD_one_left hb, heq]) rfl
  case product =>
    rintro t rfl
    have hlt := mulD_lt s.opa.toNat hb
    have hval : (BitVec.ofNat 32 (mulD s.opa.toNat s.opb.toNat)).toNat = mulD s.opa.toNat s.opb.toNat :=
      Nat.mod_eq_of_lt (by omega)
    exact exec_divD_of_mulD_eq hr (hval.trans_lt hlt) hb h0 ha hval.symm (toResult_word _)

/-- Settles O10: `div_T` multiplies by the table inverse, which every nonzero element has; the outcome is DIV.D's by O50. -/
theorem divTMultipliesByInverse : Obligations.DivTMultipliesByInverse := by
  refine ⟨rfl, fun s => ⟨fun hr => runCommand_notReady hr _, fun hr => ⟨fun ha hb h0 => ?quotient,
    fun ha hb0 => runCommand_divE_zero hr ha hb0, runCommand_elems_range hr, fun hT => ?engines⟩⟩⟩
  case quotient =>
    have hdiv := divE_ok (mul := mulT s) (toNat_ne_zero h0) (invT_of_ne_zero s (toNat_ne_zero h0)) s.opa.toNat
    refine ⟨⟨_, invT_of_ne_zero s (toNat_ne_zero h0), runCommand_elems_ok hr ha hb hdiv rfl⟩, fun ha0 => ?_⟩
    refine runCommand_elems_ok hr ha hb hdiv ?_
    rw [ha0]
    exact congrArg toResult (mulT_zero_left s _)
  case engines =>
    obtain ⟨-, -, hdiv, -⟩ := enginesAgree s fun _ => hT
    exact hdiv.symm

/-- POW.D gives `w` when the power's value is `n` (R85). -/
theorem exec_powD_of_eq {s : State} {n : Nat} {w : Word} (hr : s.ready = true) (ha : IsElem s.opa) (hb : IsElem s.opb)
    (hn : powE mulD s.opa.toNat s.opb.toNat = n) (hw : toResult n = w) :
    exec .powD s = .next { s with res := w, ecode := 0 } :=
  runCommand_elems_ok hr ha hb (congrArg Except.ok hn) hw

/-- Settles O11: each corner case is a law of `pow_D`; exponents 254 and 255 rest on the order of the generator. -/
theorem powDMultipliesRepeatedly : Obligations.PowDMultipliesRepeatedly := by
  refine ⟨rfl, fun s hr => ⟨fun ha hb => ⟨exec_powD_of_eq hr ha hb rfl rfl, powD_lt ha _, fun he => ?zeroth,
    fun ha0 he => ?zeroBase, fun he => ?first, fun ha1 => ?oneBase, fun ha0 he => ?order, fun ha0 he => ?inverse⟩,
    runCommand_elems_range hr⟩⟩
  case zeroth => exact exec_powD_of_eq hr ha hb (by rw [he]; exact powE_zero _ _) rfl
  case zeroBase => exact exec_powD_of_eq hr ha hb (by rw [ha0]; exact powD_of_zero (toNat_ne_zero he)) rfl
  case first => exact exec_powD_of_eq hr ha hb (by rw [he]; exact powD_one ha) (toResult_word _)
  case oneBase => exact exec_powD_of_eq hr ha hb (by rw [ha1]; exact powD_of_one _) rfl
  case order => exact exec_powD_of_eq hr ha hb (by rw [he]; exact powD_order ha (toNat_ne_zero ha0)) rfl
  case inverse =>
    have hpow : powE mulD s.opa.toNat s.opb.toNat = powE mulD s.opa.toNat 254 := by rw [he]; rfl
    have hinv := invD_eq_powD ha (toNat_ne_zero ha0)
    refine congrArg (runCommand s) ?_
    rw [elem_of_lt ha, elem_of_lt hb, withTwo_ok, withOne_ok, hpow, hinv]

/-- Settles O12: a zero base meets the zero test of `mul_T`; the outcome is POW.D's by O50. -/
theorem powTMultipliesRepeatedly : Obligations.PowTMultipliesRepeatedly := by
  refine ⟨rfl, fun s => ⟨fun hr => runCommand_notReady hr _, fun hr => ⟨fun ha hb =>
    ⟨runCommand_elems_ok hr ha hb rfl rfl, fun he => ?zeroth, fun ha0 he => ?zeroBase⟩,
    runCommand_elems_range hr, fun hT => ?engines⟩⟩⟩
  case zeroth => exact runCommand_elems_ok hr ha hb (n := 1) (by rw [he]; rfl) rfl
  case zeroBase =>
    obtain ⟨e, he'⟩ := Nat.exists_eq_succ_of_ne_zero (toNat_ne_zero he)
    refine runCommand_elems_ok hr ha hb (n := 0) ?_ rfl
    rw [he', ha0]
    exact congrArg Except.ok (mulT_zero_right s _)
  case engines =>
    obtain ⟨-, -, -, hpow⟩ := enginesAgree s fun _ => hT
    exact hpow.symm

end Sys2Proof.Machine

/-! ### The length of a polynomial (00_scope.md R13)

`bitlen` is Mathlib's `Nat.size`: a value's degree plus one. -/

namespace Sys2Proof.Machine

theorem bitlen_eq_size (v : Nat) : bitlen v = v.size :=
  eq_of_forall_ge_iff fun k => (bitlen_le_iff v k).trans Nat.size_le.symm

theorem bitlen_eq_zero_iff (v : Nat) : bitlen v = 0 ↔ v = 0 := by rw [bitlen_eq_size, Nat.size_eq_zero]

theorem bitlen_pos {v : Nat} (h : v ≠ 0) : 0 < bitlen v :=
  Nat.pos_of_ne_zero fun hz => h ((bitlen_eq_zero_iff v).mp hz)

theorem bitlen_shiftLeft {v : Nat} (h : v ≠ 0) (k : Nat) : bitlen (v <<< k) = bitlen v + k := by
  rw [bitlen_eq_size, bitlen_eq_size, Nat.size_shiftLeft h]

theorem bitlen_xor_le (x y : Nat) : bitlen (x ^^^ y) ≤ max (bitlen x) (bitlen y) :=
  (bitlen_le_iff _ _).mpr (Nat.xor_lt_two_pow ((bitlen_le_iff x _).mp (le_max_left _ _))
    ((bitlen_le_iff y _).mp (le_max_right _ _)))

/-- Adding a shorter polynomial keeps the length. -/
theorem bitlen_xor_of_lt {x y : Nat} (h : bitlen y < bitlen x) : bitlen (x ^^^ y) = bitlen x := by
  have hle := bitlen_xor_le x y
  have hback := bitlen_xor_le (x ^^^ y) y
  rw [Nat.xor_xor_cancel_right] at hback
  omega

theorem testBit_bitlen_sub_one {v : Nat} (h : v ≠ 0) : v.testBit (bitlen v - 1) = true := by
  have hpos := bitlen_pos h
  refine Nat.testBit_of_two_pow_le_and_two_pow_add_one_gt ?_ ?_
  · refine Nat.le_of_not_lt fun hlt => ?_
    have := (bitlen_le_iff v _).mpr hlt
    omega
  · rw [Nat.sub_add_cancel hpos]
    exact lt_two_pow_bitlen v

/-- The leading terms of two polynomials of equal length cancel. -/
theorem bitlen_xor_lt {x y : Nat} (hx : x ≠ 0) (h : bitlen y = bitlen x) : bitlen (x ^^^ y) < bitlen x := by
  have hpos := bitlen_pos hx
  have hy : y ≠ 0 := fun h0 => by rw [h0, bitlen_zero] at h; omega
  have hlt : x ^^^ y < 2 ^ (bitlen x - 1) := by
    refine Nat.lt_pow_two_of_testBit _ fun i hi => ?_
    rcases Nat.eq_or_lt_of_le hi with rfl | hi
    · rw [Nat.testBit_xor, testBit_bitlen_sub_one hx, ← h, testBit_bitlen_sub_one hy, Bool.xor_self]
    · have hlong : bitlen (x ^^^ y) ≤ i := by
        have := bitlen_xor_le x y
        omega
      exact Nat.testBit_lt_two_pow ((bitlen_le_iff _ _).mp hlong)
  have := (bitlen_le_iff _ _).mpr hlt
  omega

end Sys2Proof.Machine

/-! ### The carry-less product (41_direct_engine.md R100)

The loop of R100 gives the recursion on the bits of `a` (`clmul_bit`); every law follows from it by induction on the bits. -/

namespace Sys2Proof.Machine

/-- The copies of `b` that the lowest `n` bits of `a` select. -/
def clmulLoop (n a b : Nat) : Nat :=
  (List.range n).foldl (fun acc i => bif a.testBit i then acc ^^^ (b <<< i) else acc) 0

theorem clmulLoop_succ (n a b : Nat) :
    clmulLoop (n + 1) a b = clmulLoop n a b ^^^ (bif a.testBit n then b <<< n else 0) := by
  rw [clmulLoop, List.range_succ, List.foldl_append, ← clmulLoop, List.foldl_cons, List.foldl_nil]
  cases a.testBit n
  · exact (Nat.xor_zero _).symm
  · rfl

/-- Any number of bits that `a` fits in gives the product. -/
theorem clmul_eq_clmulLoop {n a : Nat} (h : bitlen a ≤ n) (b : Nat) : clmul a b = clmulLoop n a b := by
  induction n, h using Nat.le_induction with
  | base => rfl
  | succ n hn ih =>
    have hbit : a.testBit n = false := Nat.testBit_lt_two_pow ((bitlen_le_iff a n).mp hn)
    rw [clmulLoop_succ, hbit, cond_false, Nat.xor_zero, ih]

/-- Bit 0 selects `b` itself, and each higher bit the doubled copy that it selects one place lower. -/
theorem clmulLoop_bit (n : Nat) (c : Bool) (a b : Nat) :
    clmulLoop (n + 1) (Nat.bit c a) b = clmulLoop n a b <<< 1 ^^^ (bif c then b else 0) := by
  induction n with
  | zero => rw [clmulLoop_succ, Nat.testBit_bit_zero]; rfl
  | succ n ih =>
    rw [clmulLoop_succ, ih, clmulLoop_succ, Nat.testBit_bit_succ]
    cases a.testBit n
    · simp
    · rw [cond_true, cond_true, Nat.shiftLeft_xor_distrib, ← Nat.shiftLeft_add]
      ac_rfl

theorem clmul_bit (c : Bool) (a b : Nat) : clmul (Nat.bit c a) b = clmul a b <<< 1 ^^^ (bif c then b else 0) := by
  have hlen : bitlen (Nat.bit c a) ≤ bitlen a + 1 :=
    (bitlen_le_iff _ _).mpr (Nat.bit_lt_two_pow_succ_iff.mpr (lt_two_pow_bitlen a))
  rw [clmul_eq_clmulLoop hlen, clmulLoop_bit, ← clmul_eq_clmulLoop le_rfl]

theorem clmul_double (a b : Nat) : clmul (2 * a) b = clmul a b <<< 1 := by
  rw [← Nat.bit_false_apply, clmul_bit, cond_false, Nat.xor_zero]

theorem clmul_double_add_one (a b : Nat) : clmul (2 * a + 1) b = clmul a b <<< 1 ^^^ b :=
  clmul_bit true a b

@[simp] theorem clmul_one_left (b : Nat) : clmul 1 b = b := by
  rw [show 1 = 2 * 0 + 1 from rfl, clmul_double_add_one, clmul_zero_left, Nat.zero_shiftLeft, Nat.zero_xor]

@[simp] theorem clmul_zero_right (a : Nat) : clmul a 0 = 0 := by
  induction a using Nat.binaryRec with
  | zero => rfl
  | bit c a ih => rw [clmul_bit, ih]; cases c <;> rfl

theorem clmul_xor_right (a b b' : Nat) : clmul a (b ^^^ b') = clmul a b ^^^ clmul a b' := by
  induction a using Nat.binaryRec with
  | zero => exact (Nat.xor_self 0).symm
  | bit c a ih =>
    rw [clmul_bit, clmul_bit, clmul_bit, ih, Nat.shiftLeft_xor_distrib]
    cases c
    · simp
    · simp only [cond_true]
      ac_rfl

theorem clmul_shiftLeft_right (a b : Nat) : clmul a (b <<< 1) = clmul a b <<< 1 := by
  induction a using Nat.binaryRec with
  | zero => rfl
  | bit c a ih =>
    rw [clmul_bit, clmul_bit, ih, Nat.shiftLeft_xor_distrib]
    cases c <;> rfl

/-- A natural is its doubled upper bits plus its lowest bit. -/
theorem bit_eq_xor (c : Bool) (a : Nat) : Nat.bit c a = a <<< 1 ^^^ (bif c then 1 else 0) := by
  have hshift : a <<< 1 = Nat.bit false a := by rw [Nat.shiftLeft_eq, Nat.bit_false_apply, Nat.mul_comm]
  have hbit : (bif c then 1 else 0) = Nat.bit c 0 := by cases c <;> rfl
  rw [hshift, hbit, Nat.xor_bit, Nat.xor_zero, Bool.bne_eq_xor, Bool.false_xor]

theorem clmul_one_right (a : Nat) : clmul a 1 = a := by
  induction a using Nat.binaryRec with
  | zero => rfl
  | bit c a ih => rw [clmul_bit, ih, bit_eq_xor]

theorem clmul_comm (a b : Nat) : clmul a b = clmul b a := by
  induction a using Nat.binaryRec with
  | zero => rw [clmul_zero_left, clmul_zero_right]
  | bit c a ih =>
    rw [clmul_bit, ih, bit_eq_xor, clmul_xor_right, clmul_shiftLeft_right]
    cases c
    · simp
    · rw [cond_true, cond_true, clmul_one_right]

theorem clmul_xor_left (a a' b : Nat) : clmul (a ^^^ a') b = clmul a b ^^^ clmul a' b := by
  rw [clmul_comm, clmul_xor_right, clmul_comm b a, clmul_comm b a']

theorem clmul_assoc (a b c : Nat) : clmul (clmul a b) c = clmul a (clmul b c) := by
  induction a using Nat.binaryRec with
  | zero => rfl
  | bit d a ih =>
    rw [clmul_bit, clmul_bit, ← ih, clmul_xor_left, clmul_comm _ c, clmul_shiftLeft_right, clmul_comm c]
    cases d <;> simp

theorem clmul_one_shiftLeft (k b : Nat) : clmul (1 <<< k) b = b <<< k := by
  induction k with
  | zero => exact clmul_one_left b
  | succ k ih => rw [Nat.shiftLeft_succ, clmul_double, ih, ← Nat.shiftLeft_add]

/-- The lengths of nonzero factors add, less one: the leading terms do not cancel. -/
theorem bitlen_clmul {a b : Nat} (ha : a ≠ 0) (hb : b ≠ 0) : bitlen (clmul a b) = bitlen a + bitlen b - 1 := by
  induction a using Nat.binaryRecFromOne with
  | zero => exact absurd rfl ha
  | one => rw [clmul_one_left]; exact (Nat.add_sub_cancel_left _ _).symm
  | bit c a ha' ih =>
    have hbit : bitlen (Nat.bit c a) = bitlen a + 1 := by
      rw [bitlen_eq_size, bitlen_eq_size, Nat.size_bit ha]
    have hpos := bitlen_pos ha'
    have hpos' := bitlen_pos hb
    have hlen := ih ha'
    have hdouble : bitlen (clmul a b <<< 1) = bitlen (clmul a b) + 1 :=
      bitlen_shiftLeft (fun h0 => by rw [h0, bitlen_zero] at hlen; omega) 1
    have hadd : bitlen (bif c then b else 0) < bitlen (clmul a b <<< 1) := by
      cases c
      · simp; omega
      · simp only [cond_true]; omega
    rw [clmul_bit, bitlen_xor_of_lt hadd]
    omega

/-- Settles O53: each clause is a law of `clmul` proved above by induction on bits. -/
theorem clmulLaws : Obligations.ClmulLaws := fun a b =>
  ⟨clmul_comm a b, clmul_zero_right a, clmul_zero_left b, clmul_one_right a, fun k => clmul_one_shiftLeft k b,
    clmul_double a b, clmul_double_add_one a b, bitlen_clmul⟩

end Sys2Proof.Machine

/-! ### Polynomial division (41_direct_engine.md R102, R103)

Each iteration moves one term from the remainder to the quotient, so `q * d + r` stays `n` while `r` gets shorter; and a
quotient that leaves a remainder shorter than `d` is the only one that does. -/

namespace Sys2Proof.Machine

/-- A common term of two sums cancels. -/
theorem xor_cancel_middle (x y z : Nat) : (x ^^^ y) ^^^ (y ^^^ z) = x ^^^ z := by
  rw [Nat.xor_assoc, Nat.xor_xor_cancel_left]

/-- One iteration of `pdiv`, while the remainder is not shorter than the divisor. -/
theorem pdivLoop_of_le {d r : Nat} (h : bitlen d ≤ bitlen r) (k q : Nat) :
    pdivLoop (k + 1) d q r =
      pdivLoop k d (q ^^^ (1 <<< (bitlen r - bitlen d))) (r ^^^ d <<< (bitlen r - bitlen d)) := by
  rw [pdivLoop, Nat.ble_eq_true_of_le h, cond_true, clmul_one_shiftLeft]

theorem pdivLoop_of_lt {d r : Nat} (h : bitlen r < bitlen d) (k q : Nat) : pdivLoop k d q r = q := by
  cases k with
  | zero => rfl
  | succ k =>
    have hble : Nat.ble (bitlen d) (bitlen r) = false := by simpa [← Bool.not_eq_true] using h
    rw [pdivLoop, hble, cond_false]

/-- An iteration cancels the leading term of the remainder. -/
theorem bitlen_pdivLoop_remainder {d r : Nat} (hd : d ≠ 0) (h : bitlen d ≤ bitlen r) :
    bitlen (r ^^^ d <<< (bitlen r - bitlen d)) < bitlen r := by
  have hr : r ≠ 0 := fun h0 => by
    have := bitlen_pos hd
    rw [h0, bitlen_zero] at h
    omega
  exact bitlen_xor_lt hr (by rw [bitlen_shiftLeft hd]; omega)

/-- With an iteration for each bit of the remainder `r`, what the loop adds to the quotient leaves of `r` a remainder
shorter than `d`. -/
theorem bitlen_pdivLoop {d : Nat} (hd : d ≠ 0) (k : Nat) : ∀ q r : Nat, bitlen r ≤ k →
    bitlen (r ^^^ clmul (q ^^^ pdivLoop k d q r) d) < bitlen d := by
  induction k with
  | zero =>
    intro q r hk
    have hr : r = 0 := (bitlen_eq_zero_iff r).mp (Nat.le_zero.mp hk)
    simpa [hr, pdivLoop] using bitlen_pos hd
  | succ k ih =>
    intro q r hk
    rcases Nat.lt_or_ge (bitlen r) (bitlen d) with hlt | hle
    · rw [pdivLoop_of_lt hlt]
      simpa using hlt
    · rw [pdivLoop_of_le hle]
      have hrest := ih (q ^^^ 1 <<< (bitlen r - bitlen d)) (r ^^^ d <<< (bitlen r - bitlen d))
        (by have := bitlen_pdivLoop_remainder hd hle; omega)
      rwa [Nat.xor_right_comm q, clmul_xor_left, clmul_one_shiftLeft, Nat.xor_comm (clmul _ d),
        xor_cancel_middle] at hrest

/-- The remainder is shorter than the divisor (R103). -/
theorem bitlen_remainder_lt (n : Nat) {d : Nat} (hd : d ≠ 0) : bitlen (n ^^^ clmul (polyQuotient n d) d) < bitlen d := by
  have h := bitlen_pdivLoop hd (bitlen n) 0 n le_rfl
  rwa [Nat.zero_xor] at h

/-- A multiple of `d` that is shorter than `d` is zero. -/
theorem eq_zero_of_bitlen_clmul_lt {q d : Nat} (hd : d ≠ 0) (h : bitlen (clmul q d) < bitlen d) : q = 0 := by
  by_contra hq
  rw [bitlen_clmul hq hd] at h
  have := bitlen_pos hq
  omega

/-- The quotient is the only one that leaves a remainder shorter than the divisor. -/
theorem polyQuotient_eq {n d q : Nat} (hd : d ≠ 0) (h : bitlen (n ^^^ clmul q d) < bitlen d) : polyQuotient n d = q := by
  have hdiff : clmul (polyQuotient n d ^^^ q) d = (n ^^^ clmul (polyQuotient n d) d) ^^^ (n ^^^ clmul q d) := by
    rw [clmul_xor_left, Nat.xor_comm n, xor_cancel_middle]
  have hshort : bitlen (clmul (polyQuotient n d ^^^ q) d) < bitlen d := by
    rw [hdiff]
    exact (bitlen_xor_le _ _).trans_lt (max_lt (bitlen_remainder_lt n hd) h)
  exact Nat.xor_eq_zero_iff.mp (eq_zero_of_bitlen_clmul_lt hd hshort)

theorem polyQuotient_of_lt {n d : Nat} (h : bitlen n < bitlen d) : polyQuotient n d = 0 := pdivLoop_of_lt h _ _

/-- Equal lengths: the quotient is 1. -/
theorem polyQuotient_of_bitlen_eq {n d : Nat} (hd : d ≠ 0) (h : bitlen n = bitlen d) : polyQuotient n d = 1 :=
  polyQuotient_eq hd (by rw [clmul_one_left, Nat.xor_comm]; exact bitlen_xor_lt hd h)

theorem polyQuotient_one (n : Nat) : polyQuotient n 1 = n :=
  polyQuotient_eq one_ne_zero (by rw [clmul_one_right, Nat.xor_self]; decide)

/-- The length of the quotient: the remainder is too short to touch the leading term of `q * d`. -/
theorem bitlen_polyQuotient {n d : Nat} (hd : d ≠ 0) (h : bitlen d ≤ bitlen n) :
    bitlen (polyQuotient n d) = bitlen n - bitlen d + 1 := by
  have hmul : bitlen (clmul (polyQuotient n d) d) = bitlen n := by
    have hrem := bitlen_xor_of_lt ((bitlen_remainder_lt n hd).trans_le h)
    rwa [Nat.xor_xor_cancel_left] at hrem
  have hpos := bitlen_pos hd
  have hq : polyQuotient n d ≠ 0 := fun h0 => by
    rw [h0, clmul_zero_left, bitlen_zero] at hmul
    omega
  rw [bitlen_clmul hq hd] at hmul
  have := bitlen_pos hq
  omega

theorem bitlen_polyQuotient_le (n : Nat) {d : Nat} (hd : d ≠ 0) : bitlen (polyQuotient n d) ≤ bitlen n := by
  have hpos := bitlen_pos hd
  rcases Nat.lt_or_ge (bitlen n) (bitlen d) with h | h
  · rw [polyQuotient_of_lt h, bitlen_zero]
    exact Nat.zero_le _
  · rw [bitlen_polyQuotient hd h]
    omega

/-- The quotient fits in as many bits as the dividend. -/
theorem polyQuotient_lt {n d k : Nat} (hd : d ≠ 0) (h : n < 2 ^ k) : polyQuotient n d < 2 ^ k :=
  (bitlen_le_iff _ _).mp ((bitlen_polyQuotient_le n hd).trans ((bitlen_le_iff _ _).mpr h))

/-- Settles O54: the loop's invariant gives the remainder, and the quotient's length and special values follow from it. -/
theorem pdivIsEuclideanDivision : Obligations.PdivIsEuclideanDivision := by
  intro n d hd
  refine ⟨polyQuotient n d, pdiv_of_ne_zero n hd, bitlen_remainder_lt n hd, bitlen_polyQuotient hd, polyQuotient_of_lt,
    polyQuotient_lt hd, ?one, ?self, ?zero⟩
  case one => rw [pdiv_of_ne_zero n one_ne_zero, polyQuotient_one]
  case self => rw [pdiv_of_ne_zero d hd, polyQuotient_of_bitlen_eq hd rfl]
  case zero => rw [pdiv_of_ne_zero 0 hd, polyQuotient_of_lt (bitlen_zero ▸ bitlen_pos hd)]

end Sys2Proof.Machine

/-! ### CLMUL and PDIV (41_direct_engine.md R101, R104) -/

namespace Sys2Proof.Machine

section
variable {s : State}

/-- CLMUL on two polynomials of degree at most 15 completes with their product. -/
theorem exec_clmul_poly16 {w : Word} (hr : s.ready = true) (ha : IsPoly16 s.opa) (hb : IsPoly16 s.opb)
    (hw : toResult (clmul s.opa.toNat s.opb.toNat) = w) :
    exec .clmul s = .next { s with res := w, ecode := 0 } := by
  rw [exec, execClmul, poly16_of_lt ha, poly16_of_lt hb, withTwo_ok, map_toResult_ok, hw, runCommand_ok hr]

/-- An operand of a higher degree is RANGE, whichever of the two it is. -/
theorem exec_clmul_range (hr : s.ready = true) (h : ¬(IsPoly16 s.opa ∧ IsPoly16 s.opb)) :
    exec .clmul s = .next { s with ecode := 3 } := by
  rw [exec, execClmul]
  by_cases ha : IsPoly16 s.opa
  · rw [poly16_of_lt ha, poly16_of_not_lt fun hb => h ⟨ha, hb⟩, withTwo_error_right, runCommand_error hr, Err.code]
  · rw [poly16_of_not_lt ha, withTwo_error_left, runCommand_error hr, Err.code]

/-- PDIV with a nonzero divisor completes with the quotient, for every dividend. -/
theorem exec_pdiv_of_ne_zero {w : Word} (hr : s.ready = true) (h0 : s.opb ≠ 0)
    (hw : toResult (polyQuotient s.opa.toNat s.opb.toNat) = w) :
    exec .pdiv s = .next { s with res := w, ecode := 0 } := by
  rw [exec, execPdiv, poly32_eq, poly32_eq, withTwo_ok, pdiv_of_ne_zero _ (toNat_ne_zero h0), map_toResult_ok, hw,
    runCommand_ok hr]

theorem exec_pdiv_zero (hr : s.ready = true) (h0 : s.opb = 0) : exec .pdiv s = .next { s with ecode := 4 } := by
  have hb : poly32 s.opb = .ok 0 := by rw [h0]; rfl
  rw [exec, execPdiv, poly32_eq, hb, withTwo_ok, pdiv_zero, map_toResult_error, runCommand_error hr, Err.code]

end

/-- The product of polynomials of `m` and `n` bits has `m + n - 1` bits. -/
theorem clmul_lt {a b m n : Nat} (ha : a < 2 ^ m) (hb : b < 2 ^ n) : clmul a b < 2 ^ (m + n - 1) := by
  by_cases ha0 : a = 0
  · rw [ha0, clmul_zero_left]
    exact Nat.two_pow_pos _
  by_cases hb0 : b = 0
  · rw [hb0, clmul_zero_right]
    exact Nat.two_pow_pos _
  rw [← bitlen_le_iff] at ha hb ⊢
  rw [bitlen_clmul ha0 hb0]
  omega

theorem clmul_ffff_ffff : clmul 0xFFFF 0xFFFF = 0x55555555 := by decide +kernel

/-- Settles O3: the lengths of the factors bound the product, and zero is the laws' zero. -/
theorem clmulGivesWholeProduct : Obligations.ClmulGivesWholeProduct := by
  refine ⟨rfl, fun s hr => ⟨fun ha hb => ⟨exec_clmul_poly16 hr ha hb rfl, clmul_lt (m := 16) (n := 16) ha hb,
    fun h0 => ?zero, fun ha1 hb1 => ?ones⟩, exec_clmul_range hr⟩⟩
  case zero =>
    refine exec_clmul_poly16 hr ha hb ?_
    rcases h0 with h0 | h0
    · rw [h0]; exact congrArg toResult (clmul_zero_left _)
    · rw [h0]; exact congrArg toResult (clmul_zero_right _)
  case ones =>
    refine exec_clmul_poly16 hr ha hb ?_
    rw [ha1, hb1]
    exact congrArg toResult clmul_ffff_ffff

/-- Settles O4: the corner cases are the special quotients of the Euclidean division. -/
theorem pdivGivesQuotient : Obligations.PdivGivesQuotient := by
  refine ⟨rfl, fun s hr => ⟨fun h0 => ⟨⟨_, pdiv_of_ne_zero _ (toNat_ne_zero h0),
    polyQuotient_lt (toNat_ne_zero h0) s.opa.isLt, exec_pdiv_of_ne_zero hr h0 rfl⟩,
    fun hlt => ?short, fun hb1 => ?one, fun heq => ?equalLength⟩, exec_pdiv_zero hr⟩⟩
  case short => exact exec_pdiv_of_ne_zero hr h0 (by rw [polyQuotient_of_lt hlt]; rfl)
  case one =>
    refine exec_pdiv_of_ne_zero hr h0 ?_
    rw [hb1, show (1 : Word).toNat = 1 from rfl, polyQuotient_one, toResult_word]
  case equalLength =>
    exact exec_pdiv_of_ne_zero hr h0 (by rw [polyQuotient_of_bitlen_eq (toNat_ne_zero h0) heq]; rfl)

end Sys2Proof.Machine

/-! ### The direct multiply is the product modulo POLY (41_direct_engine.md R105, R106)

`CongruentModPoly x y` says that `x` and `y` differ by a multiple of POLY. Doubling with reduction is congruent to doubling, so
the product of the loop is congruent to the carry-less product; being shorter than POLY, it is its remainder. -/

namespace Sys2Proof.Machine

/-- `x` and `y` leave the same remainder modulo POLY: they differ by a multiple of it. -/
def CongruentModPoly (x y : Nat) : Prop := ∃ q, x ^^^ y = clmul q Config.poly

namespace CongruentModPoly

variable {x y z x' y' : Nat}

theorem refl (x : Nat) : CongruentModPoly x x := ⟨0, by rw [Nat.xor_self, clmul_zero_left]⟩

theorem trans (h : CongruentModPoly x y) (h' : CongruentModPoly y z) : CongruentModPoly x z := by
  obtain ⟨q, hq⟩ := h
  obtain ⟨q', hq'⟩ := h'
  exact ⟨q ^^^ q', by rw [clmul_xor_left, ← hq, ← hq', xor_cancel_middle]⟩

theorem xor (h : CongruentModPoly x y) (z : Nat) : CongruentModPoly (x ^^^ z) (y ^^^ z) := by
  obtain ⟨q, hq⟩ := h
  exact ⟨q, by rw [← hq, Nat.xor_comm y z, xor_cancel_middle]⟩

theorem shiftLeft_one (h : CongruentModPoly x y) : CongruentModPoly (x <<< 1) (y <<< 1) := by
  obtain ⟨q, hq⟩ := h
  exact ⟨2 * q, by rw [clmul_double, ← hq, Nat.shiftLeft_xor_distrib]⟩

/-- What is congruent to `y` and shorter than POLY is the remainder of `y`. -/
theorem eq_remainder (h : CongruentModPoly x y) (hx : x < 256) :
    x = y ^^^ clmul (polyQuotient y Config.poly) Config.poly := by
  obtain ⟨q, hq⟩ := h
  have hrem : y ^^^ clmul q Config.poly = x := by rw [← hq, Nat.xor_comm x y, Nat.xor_xor_cancel_left]
  have hquot : polyQuotient y Config.poly = q := by
    refine polyQuotient_eq (by norm_num) ?_
    rw [hrem]
    exact ((bitlen_le_iff x 8).mpr hx).trans_lt (by decide)
  rw [hquot, hrem]

end CongruentModPoly

theorem doubleReduce_congruent (b : Nat) : CongruentModPoly (doubleReduce b) (b <<< 1) := by
  rw [doubleReduce]
  cases (b <<< 1).testBit 8
  · exact .refl _
  · exact ⟨1, by rw [cond_true, Nat.xor_right_comm, Nat.xor_self, Nat.zero_xor, clmul_one_left]⟩

theorem doubleReduce_of_lt {b : Nat} (h : b < 128) : doubleReduce b = b <<< 1 := by
  have hbit : (b <<< 1).testBit 8 = false := Nat.testBit_lt_two_pow (by rw [Nat.shiftLeft_eq]; omega)
  rw [doubleReduce, hbit, cond_false]

/-- The product is congruent to the carry-less one, by the recursion of `clmul` on the bits of the first factor. -/
theorem mulD_congruent_clmul {a b : Nat} (ha : a < 256) (hb : b < 256) : CongruentModPoly (mulD a b) (clmul a b) := by
  induction a using Nat.binaryRec with
  | zero => rw [mulD_zero_left hb, clmul_zero_left]; exact .refl 0
  | bit c a ih =>
    have hhalf : a < 128 := Nat.bit_lt_two_pow_succ_iff (n := 7).mp ha
    have hc : (bif c then 1 else 0) < 256 := by cases c <;> decide
    have hlow : mulD b (bif c then 1 else 0) = bif c then b else 0 := by
      cases c
      · exact mulD_zero_right b
      · exact mulD_one_right hb
    have hmul : mulD (Nat.bit c a) b = doubleReduce (mulD a b) ^^^ (bif c then b else 0) := by
      rw [mulD_comm ha hb, bit_eq_xor, mulD_xor_right, ← doubleReduce_of_lt hhalf, mulD_doubleReduce, hlow,
        mulD_comm hb (by omega)]
    rw [hmul, clmul_bit]
    exact ((doubleReduce_congruent _).trans (ih (by omega)).shiftLeft_one).xor _

theorem mulD_eq_remainder {a b : Nat} (ha : a < 256) (hb : b < 256) :
    mulD a b = clmul a b ^^^ clmul (polyQuotient (clmul a b) Config.poly) Config.poly :=
  (mulD_congruent_clmul ha hb).eq_remainder (mulD_lt a hb)

/-- Settles O51: the product is congruent to the carry-less product and shorter than POLY. -/
theorem mulDIsProductModuloPoly : Obligations.MulDIsProductModuloPoly :=
  ⟨doubleReduce_lt, fun a ha _ hb => ⟨mulD_lt a hb, mulD_eq_remainder ha hb, mulD_comm ha hb, mulD_zero_right a,
    mulD_one_right ha, fun _ hc => mulD_assoc a hb hc⟩⟩

end Sys2Proof.Machine

/-! ### MUL.D and INV.D (41_direct_engine.md R107, R113) -/

namespace Sys2Proof.Machine

/-- MUL.D gives `w` when the product's value is `n`. -/
theorem exec_mulD_of_eq {s : State} {n : Nat} {w : Word} (hr : s.ready = true) (ha : IsElem s.opa) (hb : IsElem s.opb)
    (hn : mulD s.opa.toNat s.opb.toNat = n) (hw : toResult n = w) :
    exec .mulD s = .next { s with res := w, ecode := 0 } :=
  runCommand_elems_ok hr ha hb (congrArg Except.ok hn) hw

/-- Settles O7: the corner cases are laws of `mul_D`, and two products computed; the outcome is MUL.T's by O50. -/
theorem mulDMultipliesElements : Obligations.MulDMultipliesElements := by
  refine ⟨rfl, fun s hr => ⟨fun ha hb => ⟨exec_mulD_of_eq hr ha hb rfl rfl, mulD_lt _ hb, fun h0 => ?zero,
    fun ha1 => ?oneLeft, fun hb1 => ?oneRight, fun ha2 hb2 => ?reduced, fun haf hbf => ?squared⟩,
    runCommand_elems_range hr, fun hT => ?engines⟩⟩
  case zero =>
    refine exec_mulD_of_eq hr ha hb (n := 0) ?_ rfl
    rcases h0 with h0 | h0
    · rw [h0]; exact mulD_zero_left hb
    · rw [h0]; exact mulD_zero_right _
  case oneLeft => exact exec_mulD_of_eq hr ha hb (by rw [ha1]; exact mulD_one_left hb) (toResult_word _)
  case oneRight => exact exec_mulD_of_eq hr ha hb (by rw [hb1]; exact mulD_one_right ha) (toResult_word _)
  case reduced => exact exec_mulD_of_eq hr ha hb (by rw [ha2, hb2]; rfl) rfl
  case squared => exact exec_mulD_of_eq hr ha hb (by rw [haf, hbf]; rfl) rfl
  case engines =>
    obtain ⟨hmul, -, -, -⟩ := enginesAgree s fun _ => hT
    exact hmul

/-- INV.D completes with what `inv_D` answers for an element; OPB is not read. -/
theorem exec_invD_of_ok {s : State} {i : Nat} {w : Word} (hr : s.ready = true) (ha : IsElem s.opa)
    (hi : invD s.opa.toNat = .ok i) (hw : toResult i = w) : exec .invD s = .next { s with res := w, ecode := 0 } := by
  rw [exec, execInvD, elem_of_lt ha, withOne_ok, hi, map_toResult_ok, hw, runCommand_ok hr]

theorem exec_invD_zero {s : State} (hr : s.ready = true) (h0 : s.opa = 0) :
    exec .invD s = .next { s with ecode := 4 } := by
  have ha : elem s.opa = .ok 0 := by rw [h0, elem_zero]
  rw [exec, execInvD, ha, withOne_ok, invD_zero, map_toResult_error, runCommand_error hr, Err.code]

theorem exec_invD_range {s : State} (hr : s.ready = true) (ha : ¬IsElem s.opa) :
    exec .invD s = .next { s with ecode := 3 } := by
  rw [exec, execInvD, elem_of_not_lt ha, withOne_error, runCommand_error hr, Err.code]

/-- The inverses that R113 lists, by their products. -/
theorem listed_inverses : ∀ p ∈ [(0x01#32, 0x01#32), (0x02, 0x8D), (0xFF, 0x1C), (0x80, 0x83)],
    IsElem p.1 ∧ IsElem p.2 ∧ mulD p.1.toNat p.2.toNat = 1 := by
  intro p hp
  simp only [List.mem_cons, List.not_mem_nil, or_false] at hp
  rcases hp with rfl | rfl | rfl | rfl <;> exact ⟨by decide, by decide, rfl⟩

/-- Settles O8: every nonzero element has its inverse as the answer, which is the one factor with product 1; the outcome is
INV.T's by O50. -/
theorem invDInvertsElement : Obligations.InvDInvertsElement := by
  refine ⟨rfl, fun s hr => ⟨fun ha h0 => ?inverse, exec_invD_zero hr, exec_invD_range hr, fun p hp hpa => ?listed,
    fun hT => ?engines⟩⟩
  case inverse =>
    obtain ⟨i, hi, hinv, hmul⟩ := invD_exists ha (toNat_ne_zero h0)
    exact ⟨i, hinv, hi, hmul, exec_invD_of_ok hr ha hinv rfl⟩
  case listed =>
    obtain ⟨ha, hi, hmul⟩ := listed_inverses p hp
    rw [← hpa] at ha hmul
    exact exec_invD_of_ok hr ha (invD_of_mulD_eq_one ha hi hmul) (toResult_word _)
  case engines =>
    obtain ⟨-, hinv, -, -⟩ := enginesAgree s fun _ => hT
    exact hinv

end Sys2Proof.Machine

/-! ### The loop of the inverter (41_direct_engine.md R110, R111, R112)

The loop is Euclid's algorithm on POLY and `a`. The determinant of its two pairs is POLY throughout, and the lengths of `old_r`
and `t` are complementary; the bounds of R111 and the values at exit follow from these two facts. -/

namespace Sys2Proof.Machine

/-- A product of shorter factors is shorter. -/
theorem bitlen_clmul_lt {a b c d : Nat} (hac : bitlen a < bitlen c) (hbd : bitlen b < bitlen d) :
    bitlen (clmul a b) < bitlen (clmul c d) := by
  have hc : c ≠ 0 := fun h0 => by rw [h0, bitlen_zero] at hac; omega
  have hd : d ≠ 0 := fun h0 => by rw [h0, bitlen_zero] at hbd; omega
  rw [bitlen_clmul hc hd]
  by_cases ha : a = 0
  · rw [ha, clmul_zero_left, bitlen_zero]; omega
  by_cases hb : b = 0
  · rw [hb, clmul_zero_right, bitlen_zero]; omega
  rw [bitlen_clmul ha hb]
  omega

theorem bitlen_eq_one_iff (v : Nat) : bitlen v = 1 ↔ v = 1 := by
  have h0 := bitlen_eq_zero_iff v
  have h1 : bitlen v ≤ 1 ↔ v < 2 := bitlen_le_iff v 1
  omega

theorem bitlen_poly : bitlen Config.poly = 9 := by decide

/-- What each iteration of the inverter's loop keeps. -/
structure EuclidInv (e : Euclid) : Prop where
  /-- The remainders get shorter. -/
  remainders : bitlen e.r < bitlen e.oldR
  /-- The coefficients get longer. -/
  coefficients : bitlen e.oldT < bitlen e.t
  /-- The determinant of the two pairs. -/
  determinant : clmul e.r e.oldT ^^^ clmul e.oldR e.t = Config.poly

/-- The loop's variables before the first iteration. -/
def euclidInit (a : Nat) : Euclid := { oldR := Config.poly, r := a, oldT := 0, t := 1, iters := 0 }

theorem euclidInit_inv {a : Nat} (ha : a < 256) : EuclidInv (euclidInit a) where
  remainders := ((bitlen_le_iff a 8).mpr ha).trans_lt (show 8 < bitlen Config.poly by decide)
  coefficients := show bitlen 0 < bitlen 1 by decide
  determinant := by
    change clmul a 0 ^^^ clmul Config.poly 1 = Config.poly
    rw [clmul_zero_right, clmul_one_right, Nat.zero_xor]

/-- An iteration shortens `r`. -/
theorem bitlen_euclidStep_r {e : Euclid} (hr : e.r ≠ 0) : bitlen (euclidStep e).r < bitlen e.r :=
  bitlen_remainder_lt e.oldR hr

namespace EuclidInv

variable {e : Euclid}

theorem t_ne_zero (h : EuclidInv e) : e.t ≠ 0 := fun h0 => by
  have := h.coefficients
  rw [h0, bitlen_zero] at this
  omega

theorem oldR_ne_zero (h : EuclidInv e) : e.oldR ≠ 0 := fun h0 => by
  have := h.remainders
  rw [h0, bitlen_zero] at this
  omega

/-- The quotient has degree at least 1, so multiplying by it lengthens the coefficient. -/
theorem step_coefficients (h : EuclidInv e) (hr : e.r ≠ 0) : bitlen e.t < bitlen (euclidStep e).t := by
  have hrem := h.remainders
  have hcoef := h.coefficients
  have hquot := bitlen_polyQuotient hr hrem.le
  have hquot0 : polyQuotient e.oldR e.r ≠ 0 := fun h0 => by rw [h0, bitlen_zero] at hquot; omega
  have hmul := bitlen_clmul hquot0 h.t_ne_zero
  have hlong : bitlen e.oldT < bitlen (clmul (polyQuotient e.oldR e.r) e.t) := by omega
  have hstep : (euclidStep e).t = clmul (polyQuotient e.oldR e.r) e.t ^^^ e.oldT := Nat.xor_comm _ _
  rw [hstep, bitlen_xor_of_lt hlong]
  omega

/-- Both products gain the same multiple `r * q * t`, which cancels. -/
theorem step_determinant (h : EuclidInv e) :
    clmul (euclidStep e).r (euclidStep e).oldT ^^^ clmul (euclidStep e).oldR (euclidStep e).t = Config.poly := by
  have hmultiple (q : Nat) : clmul (clmul q e.r) e.t = clmul e.r (clmul q e.t) := by rw [clmul_comm q, clmul_assoc]
  rw [← h.determinant]
  simp only [euclidStep]
  rw [clmul_xor_left, clmul_xor_right, hmultiple, Nat.xor_comm (clmul e.r e.oldT), xor_cancel_middle, Nat.xor_comm]

theorem step (h : EuclidInv e) (hr : e.r ≠ 0) : EuclidInv (euclidStep e) where
  remainders := bitlen_euclidStep_r hr
  coefficients := h.step_coefficients hr
  determinant := h.step_determinant

/-- The lengths of `old_r` and `t` are complementary: their product has the length of POLY. -/
theorem bitlen_add (h : EuclidInv e) : bitlen e.oldR + bitlen e.t = 10 := by
  have hlt := bitlen_clmul_lt h.remainders h.coefficients
  have hlen := bitlen_xor_of_lt hlt
  rw [Nat.xor_comm, h.determinant, bitlen_clmul h.oldR_ne_zero h.t_ne_zero, bitlen_poly] at hlen
  omega

/-- `old_r` is as long as POLY only before the first iteration, when it is POLY. -/
theorem oldR_cases (h : EuclidInv e) : e.oldR < 256 ∨ e.oldR = Config.poly := by
  have hsum := h.bitlen_add
  have hcoef := h.coefficients
  rcases Nat.lt_or_ge 8 (bitlen e.oldR) with hlong | hshort
  · have ht : e.t = 1 := (bitlen_eq_one_iff _).mp (by omega)
    have ht' : e.oldT = 0 := (bitlen_eq_zero_iff _).mp (by omega)
    have hdet := h.determinant
    rw [ht, ht', clmul_zero_right, clmul_one_right, Nat.zero_xor] at hdet
    exact .inr hdet
  · exact .inl ((bitlen_le_iff _ 8).mp hshort)

/-- When the remainder is 0 and the gcd 1, the coefficient `t` is POLY. -/
theorem t_at_exit (h : EuclidInv e) (hr : e.r = 0) (hgcd : e.oldR = 1) : e.t = Config.poly := by
  have hdet := h.determinant
  rwa [hr, hgcd, clmul_zero_left, clmul_one_left, Nat.zero_xor] at hdet

/-- `t` is as long as POLY only at exit, when it is POLY. -/
theorem t_cases (h : EuclidInv e) : e.t < 256 ∨ e.t = Config.poly := by
  have hsum := h.bitlen_add
  have hrem := h.remainders
  rcases Nat.lt_or_ge 8 (bitlen e.t) with hlong | hshort
  · exact .inr (h.t_at_exit ((bitlen_eq_zero_iff _).mp (by omega)) ((bitlen_eq_one_iff _).mp (by omega)))
  · exact .inl ((bitlen_le_iff _ 8).mp hshort)

theorem r_lt (h : EuclidInv e) : e.r < 256 := by
  have hsum := h.bitlen_add
  have hrem := h.remainders
  have hpos := bitlen_pos h.t_ne_zero
  exact (bitlen_le_iff _ 8).mp (by omega)

theorem oldT_lt (h : EuclidInv e) : e.oldT < 256 := by
  have hsum := h.bitlen_add
  have hcoef := h.coefficients
  have hpos := bitlen_pos h.oldR_ne_zero
  exact (bitlen_le_iff _ 8).mp (by omega)

/-- The quotient is as long as POLY only when it is POLY, divided by 1. -/
theorem quotient_cases (h : EuclidInv e) (hr : e.r ≠ 0) :
    polyQuotient e.oldR e.r < 256 ∨ polyQuotient e.oldR e.r = Config.poly := by
  rcases h.oldR_cases with hlt | heq
  · exact .inl (polyQuotient_lt (k := 8) hr hlt)
  by_cases h1 : e.r = 1
  · exact .inr (by rw [heq, h1, polyQuotient_one])
  · have hquot := bitlen_polyQuotient hr h.remainders.le
    have hsum := h.bitlen_add
    have hpos := bitlen_pos hr
    have hne := mt (bitlen_eq_one_iff e.r).mp h1
    have hpos' := bitlen_pos h.t_ne_zero
    exact .inl ((bitlen_le_iff _ 8).mp (by omega))

end EuclidInv

theorem euclidLoop_of_ne_zero {e : Euclid} (hr : e.r ≠ 0) (k : Nat) : euclidLoop (k + 1) e = euclidLoop k (euclidStep e) := by
  have hbeq : Nat.beq e.r 0 = false := by simpa [Memory.beq_decide] using hr
  rw [euclidLoop, hbeq, cond_false]

theorem euclidLoop_of_zero {e : Euclid} (hr : e.r = 0) (k : Nat) : euclidLoop k e = e := by
  cases k with
  | zero => rfl
  | succ k => rw [euclidLoop, hr]; rfl

/-- The invariant holds at each point of the loop. -/
theorem euclidLoop_inv (k : Nat) : ∀ {e : Euclid}, EuclidInv e → EuclidInv (euclidLoop k e) := by
  induction k with
  | zero => exact fun h => h
  | succ k ih =>
    intro e h
    by_cases hr : e.r = 0
    · rwa [euclidLoop_of_zero hr]
    · rw [euclidLoop_of_ne_zero hr]
      exact ih (h.step hr)

theorem le_euclidLoop_iters (k : Nat) : ∀ e : Euclid, e.iters ≤ (euclidLoop k e).iters := by
  induction k with
  | zero => exact fun e => le_rfl
  | succ k ih =>
    intro e
    by_cases hr : e.r = 0
    · rw [euclidLoop_of_zero hr]
    · rw [euclidLoop_of_ne_zero hr]
      exact (Nat.le_succ _).trans (ih (euclidStep e))

/-- With as many iterations allowed as `r` has bits the loop ends, since each iteration shortens `r`. -/
theorem euclidLoop_exit (k : Nat) : ∀ e : Euclid, bitlen e.r ≤ k →
    (euclidLoop k e).r = 0 ∧ (euclidLoop k e).iters ≤ e.iters + bitlen e.r := by
  induction k with
  | zero => exact fun e hk => ⟨(bitlen_eq_zero_iff _).mp (Nat.le_zero.mp hk), Nat.le_add_right _ _⟩
  | succ k ih =>
    intro e hk
    by_cases hr : e.r = 0
    · rw [euclidLoop_of_zero hr]
      exact ⟨hr, Nat.le_add_right _ _⟩
    · have hshort := bitlen_euclidStep_r hr
      have hcount : (euclidStep e).iters = e.iters + 1 := rfl
      obtain ⟨hexit, hle⟩ := ih (euclidStep e) (by omega)
      rw [euclidLoop_of_ne_zero hr]
      exact ⟨hexit, by omega⟩

theorem euclidOf_eq (a : Nat) : euclidOf a = euclidLoop (bitlen a) (euclidInit a) := rfl

theorem one_le_euclidOf_iters {a : Nat} (h0 : a ≠ 0) : 1 ≤ (euclidOf a).iters := by
  obtain ⟨k, hk⟩ := Nat.exists_eq_succ_of_ne_zero (bitlen_pos h0).ne'
  rw [euclidOf_eq, hk, euclidLoop_of_ne_zero h0]
  exact le_euclidLoop_iters k (euclidStep (euclidInit a))

/-- The bounds of R111 at each point of the loop: each variable is an element or POLY. -/
theorem EuclidInv.bounds {e : Euclid} (h : EuclidInv e) :
    e.oldR ≤ 0x11B ∧ e.r ≤ 0x11B ∧ e.oldT ≤ 0x11B ∧ e.t ≤ 0x11B ∧
      (e.r ≠ 0 → polyQuotient e.oldR e.r ≤ 0x11B ∧ bitlen (euclidStep e).r < bitlen e.r) := by
  have helem {v : Nat} (hv : v < 256 ∨ v = Config.poly) : v ≤ 0x11B := by
    rcases hv with hlt | rfl
    · omega
    · exact le_rfl
  exact ⟨helem h.oldR_cases, helem (.inl h.r_lt), helem (.inl h.oldT_lt), helem h.t_cases,
    fun hr => ⟨helem (h.quotient_cases hr), bitlen_euclidStep_r hr⟩⟩

/-- R112's counts, from the loop run on each element. -/
theorem euclidOf_iters_counts :
    [1, 2, 3, 4, 5, 6, 7, 8].map (fun n => ((List.range 256).filter fun a => a ≠ 0 ∧ (euclidOf a).iters = n).length) =
      [1, 10, 44, 78, 68, 34, 18, 2] := by decide +kernel

/-- Inverting twice gives the element back: it is an inverse of its inverse. -/
theorem invD_invD {a : Nat} (ha : a < 256) (h0 : a ≠ 0) : ∃ i, invD a = .ok i ∧ mulD a i = 1 ∧ invD i = .ok a := by
  obtain ⟨i, hi, hinv, hmul⟩ := invD_exists ha h0
  exact ⟨i, hinv, hmul, invD_of_mulD_eq_one hi ha ((mulD_comm hi ha).trans hmul)⟩

/-- Settles O55: the invariant gives the bounds and the values at exit, and the shortening of `r` the number of iterations. -/
theorem inverterLoopEndsWithGcdOne : Obligations.InverterLoopEndsWithGcdOne := by
  refine ⟨fun a ha h0 => ⟨fun k _ e he => ?bounds, ?exit⟩, euclidOf_iters_counts, by decide +kernel⟩
  case bounds => exact he ▸ (euclidLoop_inv k (euclidInit_inv ha)).bounds
  case exit =>
    have hinv : EuclidInv (euclidOf a) := euclidLoop_inv _ (euclidInit_inv ha)
    obtain ⟨hgcd, -⟩ := euclidOf_inverse a ha h0
    obtain ⟨hr, hiters⟩ := euclidLoop_exit (bitlen a) (euclidInit a) le_rfl
    exact ⟨hr, hgcd, hinv.oldT_lt, hinv.t_at_exit hr hgcd, one_le_euclidOf_iters h0, (Nat.zero_add (bitlen a)) ▸ hiters,
      invD_invD ha h0⟩

end Sys2Proof.Machine

/-! ### No command reports INTERNAL (41_direct_engine.md R111; 10_state.md R24) -/

namespace Sys2Proof.Machine

/-- The outcome is not the error INTERNAL. -/
def NotInternal {α : Type} (o : Except Err α) : Prop := o ≠ .error .internal

section
variable {a b : Except Err Nat}

theorem elem_notInternal (r : Word) : NotInternal (elem r) := by
  rcases elem_cases r with ⟨_, h⟩ | ⟨_, h⟩ <;> rw [h] <;> nofun

theorem poly16_notInternal (r : Word) : NotInternal (poly16 r) := by
  by_cases h : r.toNat < 65536
  · rw [poly16_of_lt h]; nofun
  · rw [poly16_of_not_lt h]; nofun

theorem index_notInternal (r : Word) (lo hi : Nat) : NotInternal (index r lo hi) := by
  by_cases h : lo ≤ r.toNat ∧ r.toNat ≤ hi
  · rw [index_of_mem h]; nofun
  · rw [index_of_not_mem h]; nofun

theorem map_toResult_notInternal (h : NotInternal a) : NotInternal (a.map toResult) := by
  cases a with
  | ok v => nofun
  | error e => exact fun he => h (by cases he; rfl)

/-- The error of a two-operand command is an operand's or its function's on the admitted operands. -/
theorem withTwo_notInternal {f : Nat → Nat → Except Err Nat} (ha : NotInternal a) (hb : NotInternal b)
    (hf : ∀ x y, b = .ok y → NotInternal (f x y)) : NotInternal (withTwo a b f) := by
  cases a with
  | error e => rw [withTwo_error_left]; exact fun he => ha (by cases he; rfl)
  | ok x =>
    cases b with
    | error e => exact fun he => hb (by cases he; rfl)
    | ok y => exact map_toResult_notInternal (hf x y rfl)

theorem withOne_notInternal {f : Nat → Except Err Nat} (ha : NotInternal a) (hf : ∀ x, a = .ok x → NotInternal (f x)) :
    NotInternal (withOne a f) := by
  cases a with
  | error e => exact fun he => ha (by cases he; rfl)
  | ok x => exact map_toResult_notInternal (hf x rfl)

end

/-- On an element `inv_D` ends with an inverse or DIVZERO (R111). -/
theorem invD_notInternal {a : Nat} (ha : a < 256) : NotInternal (invD a) := by
  rcases eq_or_ne a 0 with rfl | h0
  · rw [invD_zero]; nofun
  · obtain ⟨i, -, hinv, -⟩ := invD_exists ha h0
    rw [hinv]; nofun

theorem invT_notInternal (s : State) (a : Nat) : NotInternal (invT s a) := by
  rcases eq_or_ne a 0 with rfl | h0
  · rw [invT_zero]; nofun
  · rw [invT_of_ne_zero s h0]; nofun

theorem pdiv_notInternal (n d : Nat) : NotInternal (pdiv n d) := by
  rcases eq_or_ne d 0 with rfl | h0
  · rw [pdiv_zero]; nofun
  · rw [pdiv_of_ne_zero n h0]; nofun

/-- A quotient's error is DIVZERO or the invert's. -/
theorem divE_notInternal {mul : Nat → Nat → Nat} {inv : Nat → Except Err Nat} {b : Nat} (h : NotInternal (inv b)) (a : Nat) :
    NotInternal (divE mul inv a b) := by
  rcases eq_or_ne b 0 with rfl | h0
  · rw [divE_zero]; nofun
  cases hinv : inv b with
  | ok i => rw [divE_ok h0 hinv]; nofun
  | error e =>
    rw [divE, if_neg h0, hinv]
    exact fun he => h (by cases he; exact hinv)

/-- The outcome a command computes is never INTERNAL: of all the functions only `inv_D` could give it, and on elements it
does not. -/
theorem exec_outcome_notInternal (i : Instr) (s : State) : ∃ o, exec i s = runCommand s o ∧ NotInternal o := by
  have htwo {f : Nat → Nat → Except Err Nat} (hf : ∀ x y, y < 256 → NotInternal (f x y)) :
      NotInternal (withTwo (elem s.opa) (elem s.opb) f) :=
    withTwo_notInternal (elem_notInternal _) (elem_notInternal _) fun x y hy => hf x y (elem_ok_lt hy)
  cases i
  case clmul => exact ⟨_, rfl, withTwo_notInternal (poly16_notInternal _) (poly16_notInternal _) nofun⟩
  case pdiv => exact ⟨_, rfl, withTwo_notInternal nofun nofun fun x y _ => pdiv_notInternal x y⟩
  case rdexp | rdlog => exact ⟨_, rfl, withOne_notInternal (index_notInternal _ _ _) nofun⟩
  case invD => exact ⟨_, rfl, withOne_notInternal (elem_notInternal _) fun x hx => invD_notInternal (elem_ok_lt hx)⟩
  case invT => exact ⟨_, rfl, withOne_notInternal (elem_notInternal _) fun x _ => invT_notInternal s x⟩
  case divD => exact ⟨_, rfl, htwo fun x y hy => divE_notInternal (invD_notInternal hy) x⟩
  case divT => exact ⟨_, rfl, htwo fun x y _ => divE_notInternal (invT_notInternal s y) x⟩
  all_goals exact ⟨_, rfl, htwo nofun⟩

/-- The codes of the other four errors. -/
theorem Err.code_le_four {e : Err} (h : e ≠ .internal) : e.code.toNat ≤ 4 := by
  cases e
  case internal => exact absurd rfl h
  all_goals decide

/-- Settles O26: a command ends with NOT_READY, with 0, or with the error of an outcome that is not INTERNAL. -/
theorem commandNeverReportsInternal : Obligations.CommandNeverReportsInternal := by
  intro i s t h
  obtain ⟨o, ho, hno⟩ := exec_outcome_notInternal i s
  rcases runCommand_cases (ho ▸ h) with ⟨_, rfl⟩ | ⟨_, v, _, rfl⟩ | ⟨_, e, rfl, rfl⟩
  · exact Err.code_le_four nofun
  · exact Nat.zero_le 4
  · exact Err.code_le_four fun he => hno (congrArg Except.error he)

end Sys2Proof.Machine

/-! ### The built tables, and the generator step that builds them (42_table_engine.md R130, R131, R132, R133, R134)

Over built tables EXP is the power of the generator and LOG the logarithm; each table undoes the other. -/

namespace Sys2Proof.Machine

/-- The listed EXP inverts the listed LOG, and lists no zero. -/
theorem expContents_inverts : ∀ i < 255,
    1 ≤ expContents.getD i 0 ∧ logContents.getD (expContents.getD i 0 - 1) 0 = i := by decide +kernel

namespace TablesBuilt

variable {s : State}

theorem expEntry_eq_powD (h : TablesBuilt s) {i : Nat} (hi : i < 255) :
    (s.expEntry i).toNat = powE mulD Config.gen i := by
  rw [h.exp i hi, expContents_eq_powD hi]

theorem expEntry_zero (h : TablesBuilt s) : (s.expEntry 0).toNat = 1 := h.exp 0 (by norm_num)

theorem expEntry_last (h : TablesBuilt s) : (s.expEntry 254).toNat = 0xF6 := h.exp 254 (by norm_num)

/-- Each entry of EXP is the one before it times the generator (R130). -/
theorem expEntry_succ (h : TablesBuilt s) {i : Nat} (hi : i < 254) :
    (s.expEntry (i + 1)).toNat = mulD (s.expEntry i).toNat Config.gen := by
  rw [h.expEntry_eq_powD (by omega), h.expEntry_eq_powD (by omega), powE_succ]

/-- The power after the last entry of EXP is 1 again (R132). -/
theorem mulD_expEntry_last (h : TablesBuilt s) : mulD (s.expEntry 254).toNat Config.gen = 1 := by
  rw [h.expEntry_eq_powD (by norm_num), ← powE_succ mulD, powD_gen_order]

theorem one_le_expEntry (h : TablesBuilt s) {i : Nat} (hi : i < 255) : 1 ≤ (s.expEntry i).toNat := by
  rw [h.exp i hi]
  exact (expContents_inverts i hi).1

/-- LOG undoes EXP (R131). -/
theorem logEntry_expEntry (h : TablesBuilt s) {i : Nat} (hi : i < 255) :
    (s.logEntry ((s.expEntry i).toNat - 1)).toNat = i := by
  have hbyte : (s.expEntry i).toNat < 256 := BitVec.isLt _
  rw [h.log _ (by omega), h.exp i hi]
  exact (expContents_inverts i hi).2

theorem logEntry_le (h : TablesBuilt s) {i : Nat} (hi : i < 255) : (s.logEntry i).toNat ≤ 254 := by
  rw [h.log i hi]
  exact Nat.le_of_lt_succ (logContents_inverts (i + 1) (by omega) (by omega)).1

/-- EXP undoes LOG (R132). -/
theorem expEntry_logEntry (h : TablesBuilt s) {v : Nat} (h1 : 1 ≤ v) (hv : v ≤ 255) :
    (s.expEntry (s.logEntry (v - 1)).toNat).toNat = v := by
  have hlog : (s.logEntry (v - 1)).toNat ≤ 254 := h.logEntry_le (by omega)
  rw [h.expEntry_eq_powD (by omega), h.powD_logEntry (by omega) (by omega)]

/-- Every nonzero element stands at exactly one index of EXP: its logarithm (R132). -/
theorem existsUnique_expEntry (h : TablesBuilt s) {v : Nat} (h1 : 1 ≤ v) (hv : v ≤ 255) :
    ∃! i, i < 255 ∧ (s.expEntry i).toNat = v := by
  refine ⟨(s.logEntry (v - 1)).toNat, ⟨?_, h.expEntry_logEntry h1 hv⟩, ?_⟩
  · exact Nat.lt_succ_of_le (h.logEntry_le (by omega))
  · rintro i ⟨hi, rfl⟩
    exact (h.logEntry_expEntry hi).symm

end TablesBuilt

/-- Settles O32: both loops of `generate()` give the listed contents. -/
theorem generatorGivesListedTables : Obligations.GeneratorGivesListedTables := State.generate_tablesBuilt

/-- Settles O34: EXP and LOG undo each other, and EXP's entries are the powers of the generator. -/
theorem tablesAreInverseBijections : Obligations.TablesAreInverseBijections := fun s h =>
  ⟨fun _ => h.existsUnique_expEntry,
    fun _ hi => ⟨h.one_le_expEntry hi, h.logEntry_le hi, h.logEntry_expEntry hi⟩,
    fun _ => h.expEntry_logEntry,
    h.log 0 (by norm_num), h.log 2 (by norm_num), h.expEntry_last, h.mulD_expEntry_last⟩

/-- While READY = 0 the event GEN is the generator step (70_reset_and_hazards.md R172). -/
theorem step_gen {s : State} {rest : List PortEvent} (hp : s.port = .gen :: rest) (hr : s.ready = false) :
    step s = .next (s.popped rest).generate := by
  have hpending : ¬(s.popped rest).ready = true := by simp [hr]
  rw [step_cons hp, performEvent, genStep, if_neg hpending]

/-- Settles O31: the step is `generate()`, and its tables are built tables. -/
theorem generatorStepFillsTables : Obligations.GeneratorStepFillsTables := by
  intro s rest hp hr
  have hbuilt : TablesBuilt (s.popped rest).generate := State.generate_tablesBuilt _
  exact ⟨_, step_gen hp hr, rfl, BitVec.eq_of_toNat_eq hbuilt.expEntry_zero, fun _ => hbuilt.expEntry_succ,
    fun _ => hbuilt.logEntry_expEntry,
    fun v h1 hv => ⟨hbuilt.logEntry_le (by omega), hbuilt.expEntry_logEntry h1 hv⟩⟩

end Sys2Proof.Machine

/-! ### The table engine's commands (42_table_engine.md R136, R138, R139, R140) -/

namespace Sys2Proof.Machine

section
variable {s : State} {a : Except Err Nat} {f : Nat → Except Err Nat} {x : Nat}

/-- On an admitted operand a one-operand command completes with the result of its function. -/
theorem runCommand_withOne_ok {n : Nat} {w : Word} (hr : s.ready = true) (ha : a = .ok x) (hf : f x = .ok n)
    (hw : toResult n = w) : runCommand s (withOne a f) = .next { s with res := w, ecode := 0 } := by
  rw [ha, withOne_ok, hf, map_toResult_ok, hw, runCommand_ok hr]

/-- On an operand outside its class a one-operand command reports the class's error. -/
theorem runCommand_withOne_rejected {e : Err} (hr : s.ready = true) (ha : a = .error e) :
    runCommand s (withOne a f) = .next { s with ecode := e.code } := by
  rw [ha, withOne_error, runCommand_error hr]

/-- On an admitted operand a one-operand command reports the error of its function. -/
theorem runCommand_withOne_failed {e : Err} (hr : s.ready = true) (ha : a = .ok x) (hf : f x = .error e) :
    runCommand s (withOne a f) = .next { s with ecode := e.code } := by
  rw [ha, withOne_ok, hf, map_toResult_error, runCommand_error hr]

end

section
variable {s : State} {n : Nat} {w : Word}

/-- RDEXP gives `w` when the entry's value is `n`. -/
theorem exec_rdexp_of_eq (hr : s.ready = true) (hi : s.opa.toNat ≤ 254) (hn : (s.expEntry s.opa.toNat).toNat = n)
    (hw : toResult n = w) : exec .rdexp s = .next { s with res := w, ecode := 0 } :=
  runCommand_withOne_ok hr (index_of_mem ⟨Nat.zero_le _, hi⟩) (congrArg Except.ok hn) hw

/-- RDLOG gives `w` when the logarithm is `n`. -/
theorem exec_rdlog_of_eq (hr : s.ready = true) (h1 : 1 ≤ s.opa.toNat) (hv : s.opa.toNat ≤ 255)
    (hn : (s.logEntry (s.opa.toNat - 1)).toNat = n) (hw : toResult n = w) :
    exec .rdlog s = .next { s with res := w, ecode := 0 } :=
  runCommand_withOne_ok hr (index_of_mem ⟨h1, hv⟩) (congrArg Except.ok hn) hw

/-- MUL.T gives `w` when the table product's value is `n`. -/
theorem exec_mulT_of_eq (hr : s.ready = true) (ha : IsElem s.opa) (hb : IsElem s.opb)
    (hn : mulT s s.opa.toNat s.opb.toNat = n) (hw : toResult n = w) :
    exec .mulT s = .next { s with res := w, ecode := 0 } :=
  runCommand_elems_ok hr ha hb (congrArg Except.ok hn) hw

/-- INV.T gives `w` when the table inverse's value is `n`. -/
theorem exec_invT_of_ok (hr : s.ready = true) (ha : IsElem s.opa) (hn : invT s s.opa.toNat = .ok n)
    (hw : toResult n = w) : exec .invT s = .next { s with res := w, ecode := 0 } :=
  runCommand_withOne_ok hr (elem_of_lt ha) hn hw

/-- Over built tables INV.T gives the element whose product with the operand is 1. -/
theorem exec_invT_of_mulD_eq_one (hT : TablesBuilt s) (hr : s.ready = true) (ha : IsElem s.opa) (hw : IsElem w)
    (hmul : mulD s.opa.toNat w.toNat = 1) : exec .invT s = .next { s with res := w, ecode := 0 } :=
  exec_invT_of_ok hr ha ((hT.invT_eq_invD ha).trans (invD_of_mulD_eq_one ha hw hmul)) (toResult_word w)

end

/-- The products that R136 lists, by the direct engine. -/
theorem listed_products : ∀ p ∈ [(0x01#32, 0x01#32, 0x01#32), (0x1B, 0x10, 0xAB), (0xFF, 0xFF, 0x13)],
    IsElem p.1 ∧ IsElem p.2.1 ∧ mulD p.1.toNat p.2.1.toNat = p.2.2.toNat := by
  intro p hp
  simp only [List.mem_cons, List.not_mem_nil, or_false] at hp
  rcases hp with rfl | rfl | rfl <;> exact ⟨by decide, by decide, rfl⟩

/-- Settles O13: the zero test is `mul_T`'s first, and with built tables `mul_T` is `mul_D`. -/
theorem mulTAddsLogarithms : Obligations.MulTAddsLogarithms := by
  refine ⟨rfl, fun s => ⟨fun hr => runCommand_notReady hr _, fun hr => ⟨fun ha hb h0 => ?zero,
    fun ha hb ha0 hb0 => ?logarithms, runCommand_elems_range hr, fun hT p hp hpa hpb => ?listed, fun hT => ?engines⟩⟩⟩
  case zero =>
    refine exec_mulT_of_eq hr ha hb (n := 0) ?_ rfl
    rcases h0 with h0 | h0
    · rw [h0]; exact mulT_zero_left s _
    · rw [h0]; exact mulT_zero_right s _
  case logarithms =>
    exact exec_mulT_of_eq hr ha hb (mulT_of_ne_zero s (toNat_ne_zero ha0) (toNat_ne_zero hb0)) (toResult_byte _)
  case listed =>
    obtain ⟨ha, hb, hmul⟩ := listed_products p hp
    rw [← hpa] at ha hmul
    rw [← hpb] at hb hmul
    exact exec_mulT_of_eq hr ha hb ((hT.mulT_eq_mulD ha hb).trans hmul) (toResult_word _)
  case engines =>
    obtain ⟨hmul, -, -, -⟩ := enginesAgree s fun _ => hT
    exact hmul.symm

/-- Settles O14: 1 and 0xF6 are the factors with product 1; the outcome is INV.D's by O50. -/
theorem invTNegatesLogarithm : Obligations.InvTNegatesLogarithm := by
  refine ⟨rfl, fun s => ⟨fun hr => runCommand_notReady hr _, fun hr => ⟨fun ha h0 => ?logarithm, fun h0 => ?zero,
    fun ha => runCommand_withOne_rejected hr (elem_of_not_lt ha), fun hT h1 => ?one, fun hT h3 => ?three,
    fun hT => ?engines⟩⟩⟩
  case logarithm => exact exec_invT_of_ok hr ha (invT_of_ne_zero s (toNat_ne_zero h0)) (toResult_byte _)
  case zero => exact runCommand_withOne_failed hr (by rw [h0, elem_zero]) (invT_zero s)
  case one => exact exec_invT_of_mulD_eq_one hT hr (by rw [h1]; decide) (by decide) (by rw [h1]; rfl)
  case three => exact exec_invT_of_mulD_eq_one hT hr (by rw [h3]; decide) (by decide) (by rw [h3]; rfl)
  case engines =>
    obtain ⟨-, hinv, -, -⟩ := enginesAgree s fun _ => hT
    exact hinv.symm

/-- Settles O5: RDEXP gives the entry itself, and the first and the last entry are 1 and 0xF6. -/
theorem rdexpReadsEntry : Obligations.RdexpReadsEntry := by
  refine ⟨rfl, fun s => ⟨fun hr => runCommand_notReady hr _, fun hr => ⟨fun hi =>
    exec_rdexp_of_eq hr hi rfl (toResult_byte _), fun hi => ?range, fun hT h0 => ?first, fun hT hl => ?last⟩⟩⟩
  case range => exact runCommand_withOne_rejected hr (index_of_not_mem (by omega))
  case first => exact exec_rdexp_of_eq hr (by rw [h0]; decide) (by rw [h0]; exact hT.expEntry_zero) rfl
  case last => exact exec_rdexp_of_eq hr (by rw [hl]; decide) (by rw [hl]; exact hT.expEntry_last) rfl

/-- Over built tables RDLOG gives `w` when LOG lists `n` for the operand `v`. -/
theorem exec_rdlog_of_listed {s : State} {v w : Word} {n : Nat} (hT : TablesBuilt s) (hr : s.ready = true)
    (hv : s.opa = v) (h1 : 1 ≤ v.toNat) (h255 : v.toNat ≤ 255) (hn : logContents.getD (v.toNat - 1) 0 = n)
    (hw : toResult n = w) : exec .rdlog s = .next { s with res := w, ecode := 0 } := by
  subst hv
  exact exec_rdlog_of_eq hr h1 h255 ((hT.log _ (by omega)).trans hn) hw

/-- Settles O6: RDLOG gives the entry itself, three logarithms are read off the listed LOG, and EXP undoes LOG. -/
theorem rdlogReadsLogarithm : Obligations.RdlogReadsLogarithm := by
  refine ⟨rfl, fun s => ⟨fun hr => runCommand_notReady hr _, fun hr => ⟨fun h1 hv =>
    exec_rdlog_of_eq hr h1 hv rfl (toResult_byte _), fun hout => ?range, fun hT h1 => ?one, fun hT h3 => ?three,
    fun hT hff => ?allOnes, fun hT => hT.expEntry_logEntry⟩⟩⟩
  case range =>
    refine runCommand_withOne_rejected hr (index_of_not_mem ?_)
    rcases hout with h0 | hgt
    · rw [h0]; decide
    · omega
  case one => exact exec_rdlog_of_listed hT hr h1 (by decide) (by decide) rfl rfl
  case three => exact exec_rdlog_of_listed hT hr h3 (by decide) (by decide) rfl rfl
  case allOnes => exact exec_rdlog_of_listed hT hr hff (by decide) (by decide) rfl rfl

end Sys2Proof.Machine

/-! ### The errors of a command (60_exceptions.md R150, R154, R155)

R154's priority is one lemma for each outcome; every command has one of them from every state. -/

namespace Sys2Proof.Machine

section
variable {i : Instr} {s : State}

theorem exec_notReady (i : Instr) (hr : s.ready = false) : exec i s = .next { s with ecode := 2 } := by
  obtain ⟨o, ho⟩ := exec_eq_runCommand i s
  exact ho.trans (runCommand_notReady hr o)

/-- An operand outside its class is RANGE, also where the command would meet a zero divisor. -/
theorem exec_of_not_operandsAdmitted (hr : s.ready = true) (h : ¬OperandsAdmitted i s) :
    exec i s = .next { s with ecode := 3 } := by
  cases i
  case clmul => exact exec_clmul_range hr h
  case pdiv => exact absurd trivial h
  case invD | invT => exact runCommand_withOne_rejected hr (elem_of_not_lt h)
  case rdexp => exact runCommand_withOne_rejected hr (index_of_not_mem fun hmem => h hmem.2)
  case rdlog => exact runCommand_withOne_rejected hr (index_of_not_mem h)
  all_goals exact runCommand_elems_range hr h

/-- Only the quotients and the inverses can meet a zero, and they end with DIVZERO. -/
theorem exec_of_zeroDivisor (hr : s.ready = true) (ha : OperandsAdmitted i s) (h0 : ZeroDivisor i s) :
    exec i s = .next { s with ecode := 4 } := by
  cases i
  case pdiv => exact exec_pdiv_zero hr h0
  case divD | divT => exact runCommand_divE_zero hr ha.1 h0
  case invD => exact exec_invD_zero hr h0
  case invT => exact runCommand_withOne_failed hr (by rw [h0, elem_zero]) (invT_zero s)
  all_goals exact h0.elim

/-- With no earlier error a command completes: the inverse of a nonzero element exists in either engine, so INTERNAL is never
the one that is left. -/
theorem exec_completes (hr : s.ready = true) (ha : OperandsAdmitted i s) (h0 : ¬ZeroDivisor i s) :
    ∃ v, exec i s = .next { s with res := v, ecode := 0 } := by
  cases i
  case clmul => exact ⟨_, exec_clmul_poly16 hr ha.1 ha.2 rfl⟩
  case pdiv => exact ⟨_, exec_pdiv_of_ne_zero hr h0 rfl⟩
  case rdexp => exact ⟨_, exec_rdexp_of_eq hr ha rfl rfl⟩
  case rdlog => exact ⟨_, exec_rdlog_of_eq hr ha.1 ha.2 rfl rfl⟩
  case invD =>
    obtain ⟨_, -, hinv, -⟩ := invD_exists ha (toNat_ne_zero h0)
    exact ⟨_, exec_invD_of_ok hr ha hinv rfl⟩
  case invT => exact ⟨_, exec_invT_of_ok hr ha (invT_of_ne_zero s (toNat_ne_zero h0)) rfl⟩
  case divD =>
    obtain ⟨_, -, hinv, -⟩ := invD_exists ha.2 (toNat_ne_zero h0)
    exact ⟨_, runCommand_elems_ok hr ha.1 ha.2 (divE_ok (toNat_ne_zero h0) hinv _) rfl⟩
  case divT =>
    have hinv := invT_of_ne_zero s (toNat_ne_zero h0)
    exact ⟨_, runCommand_elems_ok hr ha.1 ha.2 (divE_ok (toNat_ne_zero h0) hinv _) rfl⟩
  all_goals exact ⟨_, runCommand_elems_ok hr ha.1 ha.2 rfl rfl⟩

end

/-- The priority of R154 after decoding: NOT_READY, RANGE, DIVZERO, and completion when none of them applies. -/
theorem exec_reports_first_error (i : Instr) (s : State) :
    (s.ready = false → exec i s = .next { s with ecode := 2 }) ∧
    (s.ready = true → ¬OperandsAdmitted i s → exec i s = .next { s with ecode := 3 }) ∧
    (s.ready = true → OperandsAdmitted i s → ZeroDivisor i s → exec i s = .next { s with ecode := 4 }) ∧
    (s.ready = true → OperandsAdmitted i s → ¬ZeroDivisor i s →
      ∃ v, exec i s = .next { s with res := v, ecode := 0 }) :=
  ⟨exec_notReady i, exec_of_not_operandsAdmitted, exec_of_zeroDivisor, exec_completes⟩

/-- Settles O20: the write's step is `execute_command`, which raises ILLEGAL or runs the decoded command, and that ends with the
first error that applies. -/
theorem cmdWriteReportsFirstError : Obligations.CmdWriteReportsFirstError := by
  intro s w rest hc hp
  refine ⟨fun e he => ?illegal, fun i hi => ?command⟩
  case illegal => rw [step_write_cmd hc hp, executeCommand_of_error he, State.raise, Err.code]
  case command =>
    rw [step_write_cmd hc hp, executeCommand_of_ok hi]
    exact exec_reports_first_error i (s.popped rest)

/-- Settles O24: a command that does not complete raises an error, which writes ECODE alone. -/
theorem failingCommandKeepsResult : Obligations.FailingCommandKeepsResult := by
  intro i s t h hcode
  rcases exec_cases h with ⟨v, rfl⟩ | ⟨e, rfl⟩
  · exact absurd (s.complete_ecode v) hcode
  · rfl

/-- Settles O25: every command ends as `runCommand` does, with a next state (R150). -/
theorem everyCommandAnswersNext : Obligations.EveryCommandAnswersNext := by
  intro i s
  obtain ⟨o, ho⟩ := exec_eq_runCommand i s
  exact ⟨_, ho⟩

end Sys2Proof.Machine

/-! ### The lifetime of ECODE and RES (60_exceptions.md R156, 10_state.md R22) -/

namespace Sys2Proof.Machine

/-- `t` has the ECODE and the RES of `s`. -/
def SameOutcome (s t : State) : Prop := t.ecode = s.ecode ∧ t.res = s.res

/-- At a legal base an access keeps ECODE and RES, or is a 32-bit write to CMD that changes RES only when it clears ECODE. -/
theorem performAccess_sameOutcome_or {a : Access} {s t : State} (hc : s.config.wf = true)
    (h : performAccess a s = .next t) :
    SameOutcome s t ∨ (∃ w, a = .write (s.config.gfBase + 0x08) 4 w) ∧ (t.res = s.res ∨ t.ecode = 0) := by
  rcases performAccess_cases h with ⟨_, _, _, _, rfl⟩ | ⟨addr, width, v, rfl, hadm, hw⟩
  · exact .inl ⟨rfl, rfl⟩
  · obtain rfl : width = 4 := ((refusalOf_none_iff _ _ _).mp hadm).2.1
    obtain ⟨-, -, hcmd⟩ := address_of_slot hc hadm
    rcases hw with ⟨_, rfl⟩ | ⟨_, rfl⟩ | ⟨hslot, hend⟩ | rfl
    · exact .inl ⟨rfl, rfl⟩
    · exact .inl ⟨rfl, rfl⟩
    · refine .inr ⟨⟨v, by rw [← hcmd hslot]⟩, ?_⟩
      rcases hend with ⟨_, rfl⟩ | ⟨_, rfl⟩
      · exact .inr rfl
      · exact .inl rfl
    · exact .inl ⟨rfl, rfl⟩

/-- At a legal base a step that is no reset keeps ECODE and RES, or takes such a write to CMD from the port. -/
theorem step_sameOutcome_or {s t : State} (hc : s.config.wf = true) (h : step s = .next t)
    (hreset : s.port.head? ≠ some .reset) :
    SameOutcome s t ∨
      (∃ w, s.port.head? = some (.access (.write (s.config.gfBase + 0x08) 4 w))) ∧ (t.res = s.res ∨ t.ecode = 0) := by
  rcases step_cases h with ⟨_, ⟨_, rfl⟩ | ⟨_, rfl⟩⟩ | ⟨_, rest, hp, ⟨_, _, rfl⟩ | ⟨rfl, _⟩ | ⟨a, rfl, ha⟩⟩
  · exact .inl ⟨rfl, rfl⟩
  · exact .inl ⟨rfl, rfl⟩
  · exact .inl ⟨rfl, rfl⟩
  · exact absurd (by rw [hp, List.head?_cons]) hreset
  · rcases performAccess_sameOutcome_or (s := s.popped rest) hc ha with hsame | ⟨⟨w, rfl⟩, hres⟩
    · exact .inl hsame
    · exact .inr ⟨⟨w, by rw [hp, List.head?_cons, State.popped_config]⟩, hres⟩

/-- Settles O47: of the steps that are no reset only a write to CMD can change ECODE or RES, and RES only by completing. -/
theorem outcomeKeptUntilNextCommandOrReset : Obligations.OutcomeKeptUntilNextCommandOrReset := by
  intro s t hc h hreset
  rcases step_sameOutcome_or hc h hreset with hsame | ⟨⟨w, hw⟩, hres⟩
  · exact ⟨fun _ => hsame, fun hne => absurd hsame.2 hne⟩
  · exact ⟨fun hno => absurd hw (hno w), hres.resolve_left⟩

end Sys2Proof.Machine

/-! ### Reset and readiness (70_reset_and_hazards.md R170, R171, R172, R173; 10_state.md R31) -/

namespace Sys2Proof.Machine

section
variable {s : State}

/-- With nothing at the port the pending generator step is taken (the model's choice, assumption log 5). -/
theorem step_idle_pending (hp : s.port = []) (hr : s.ready = false) : step s = .next (s.popped []).generate := by
  have hpending : ¬(s.popped []).ready = true := by simp [hr]
  rw [step_nil hp, idleStep, if_neg hpending]

/-- With nothing at the port and no generator step pending the block waits (R171; the model's choice, assumption log 5). -/
theorem step_idle_ready (hp : s.port = []) (hr : s.ready = true) : step s = .next (s.popped []) := by
  rw [step_nil hp, idleStep, if_pos (s.popped_ready [] ▸ hr)]

/-- GEN has no step once READY = 1 (R172). -/
theorem step_gen_ready {rest : List PortEvent} (hp : s.port = .gen :: rest) (hr : s.ready = true) :
    step s = .fault .genNotPending := by
  rw [step_cons hp, performEvent, genStep, if_pos (s.popped_ready rest ▸ hr)]

/-- A reset between two steps is the reset event (R170). -/
theorem step_reset {rest : List PortEvent} (hp : s.port = .reset :: rest) : step s = .next (s.popped rest).resetEvent := by
  rw [step_cons hp, performEvent]

end

/-- Settles O22: whatever its own rule, a command ends as `runCommand` does, which raises NOT_READY while READY = 0. -/
theorem notReadyCommandOnlySetsEcode : Obligations.NotReadyCommandOnlySetsEcode := fun i _ => exec_notReady i

/-- Settles O33: READY = 1 disables GEN, and the idle step is the generator step or none, as READY says. -/
theorem generatorStepIsTakenOnce : Obligations.GeneratorStepIsTakenOnce := by
  refine ⟨fun s rest => step_gen_ready, fun s hp hr => ?pending, fun s hp hr => ?waiting⟩
  case pending => rw [step_idle_pending hp hr, State.popped, ← hp]; rfl
  case waiting => rw [step_idle_ready hp hr, State.popped, ← hp]

/-- Settles O41: the step is the reset event, which leaves no table entry written. -/
theorem resetClearsRegisters : Obligations.ResetClearsRegisters := by
  intro s rest hp
  exact ⟨(s.popped rest).resetEvent, step_reset hp, rfl, rfl, rfl, rfl, rfl, (by decide : statusWord false 0 = 0), rfl, rfl,
    fun k => ⟨State.resetEvent_expEntry _ k, State.resetEvent_logEntry _ k⟩⟩

end Sys2Proof.Machine

/-! ### A port of admitted accesses drains (70_reset_and_hazards.md R172)

An admitted access always has a step, which takes it from the port and keeps READY and the parameters, so the rest of the port
stays admitted; the induction is on the port. -/

namespace Sys2Proof.Machine

/-- Every command word has a step (30_encoding.md R66). -/
theorem executeCommand_next (w : Word) (s : State) : ∃ t, executeCommand w s = .next t := by
  cases hw : decode w with
  | ok i => rw [executeCommand_of_ok hw]; exact everyCommandAnswersNext i s
  | error e => exact ⟨_, executeCommand_of_error hw s⟩

theorem writeSlot_next (slot : Slot) (v : Word) (s : State) : ∃ t, writeSlot slot v s = .next t := by
  cases slot with
  | cmd => exact executeCommand_next v s
  | opa | opb | res | status | reserved => exact ⟨_, rfl⟩

/-- An admitted access has a step, read or write. -/
theorem performAccess_next_of_admitted {a : Access} {s : State} (h : Admitted s.config a) :
    ∃ t, performAccess a s = .next t := by
  cases a with
  | read addr width => exact ⟨_, performAccess_read h⟩
  | write addr width v => rw [performAccess_write v h]; exact writeSlot_next _ v s

/-- An access, a command's run included, leaves the rest of the port alone. -/
theorem performAccess_port {a : Access} {s t : State} (h : performAccess a s = .next t) : t.port = s.port := by
  rcases performAccess_cases h with ⟨_, _, _, _, rfl⟩ | ⟨_, _, _, _, _, hw⟩
  · rfl
  · rcases hw with ⟨_, rfl⟩ | ⟨_, rfl⟩ | ⟨_, ⟨_, rfl⟩ | ⟨_, rfl⟩⟩ | rfl <;> rfl

/-- An admitted access at the head of the port is performed in one step, which keeps READY and the parameters. -/
theorem step_admitted {s : State} {a : Access} {rest : List PortEvent} (hp : s.port = .access a :: rest)
    (ha : Admitted s.config a) : ∃ t, step s = .next t ∧ t.port = rest ∧ t.ready = s.ready ∧ t.config = s.config := by
  obtain ⟨t, ht⟩ := performAccess_next_of_admitted (s := s.popped rest) ha
  exact ⟨t, (step_cons hp).trans ht, performAccess_port ht, (performAccess_sameTables ht).ready,
    (performAccess_config ht).trans (s.popped_config rest)⟩

/-- A run whose first step answers `t` goes on from `t`. -/
theorem run_succ_of_next {M : Host.Core} {s t : M.State} (h : M.step s = .next t) (k : Nat) : M.run (k + 1) s = M.run k t := by
  rw [Host.Core.run, h]

/-- With READY = 0 the admitted accesses `evs` at the port are performed one a step, and the generator step follows. -/
theorem run_drains_and_generates : ∀ (evs : List PortEvent) (s : State), s.port = evs → s.ready = false →
    (∀ ev ∈ evs, ∃ a, ev = .access a ∧ Admitted s.config a) →
    ∃ t, Sys2Proof.core.run (evs.length + 1) s = .next t ∧ t.ready = true ∧ t.port = [] ∧ TablesBuilt t
  | [], _, hp, hr, _ =>
    ⟨_, run_succ_of_next (M := Sys2Proof.core) (step_idle_pending hp hr) 0, rfl, rfl, State.generate_tablesBuilt _⟩
  | ev :: rest, s, hp, hr, hadm => by
    obtain ⟨⟨a, rfl, ha⟩, hrest⟩ := List.forall_mem_cons.mp hadm
    obtain ⟨u, hstep, hport, hready, hconfig⟩ := step_admitted hp ha
    rw [List.length_cons, run_succ_of_next (M := Sys2Proof.core) hstep]
    exact run_drains_and_generates rest u hport (hready.trans hr) (hconfig ▸ hrest)

/-- Settles O49: the induction on the port, for the port as it stands. -/
theorem generatorStepComesWhenPortDrains : Obligations.GeneratorStepComesWhenPortDrains :=
  fun s => run_drains_and_generates s.port s rfl

end Sys2Proof.Machine

/-! ### The logarithm read back as an index (42_table_engine.md R140) -/

namespace Sys2Proof.Machine

/-- A table entry keeps its value in a register. -/
theorem toNat_setWidth_byte (b : Byte) : (b.setWidth 32).toNat = b.toNat := BitVec.toNat_setWidth_of_le (by norm_num)

/-- Settles O35: RDLOG's result is an index of EXP, and EXP undoes LOG there. -/
theorem rdexpOfRdlogGivesElementBack : Obligations.RdexpOfRdlogGivesElementBack := by
  intro s hr hT h1 hv
  refine ⟨_, exec_rdlog_of_eq hr h1 hv rfl (toResult_byte _), rfl, exec_rdexp_of_eq hr ?index ?entry (toResult_word _)⟩
  case index => exact (toNat_setWidth_byte _).trans_le (hT.logEntry_le (by omega))
  case entry =>
    rw [toNat_setWidth_byte]
    exact hT.expEntry_logEntry h1 hv

end Sys2Proof.Machine

/-! ### Rejected words by name (30_encoding.md R60, R64) -/

namespace Sys2Proof

/-- The reason `reservedBits` is given exactly when the reserved field is not zero, whatever OP is. -/
theorem decode_reservedBits_iff (w : Word) : decode w = .error .reservedBits ↔ reservedClear w = false := by
  unfold decode
  split
  case isTrue hrsv => rw [hrsv]; split <;> simp
  case isFalse hrsv => exact iff_of_true rfl (Bool.eq_false_of_not_eq_true hrsv)

/-- An illegal word whose reserved field is zero is rejected for its OP. -/
theorem decode_reservedOp {w : Word} (hrsv : reservedClear w = true) (hill : IllegalWord w) :
    decode w = .error .reservedOp := by
  obtain ⟨e, he⟩ := (decode_error_iff w).mpr hill
  cases e with
  | reservedBits => exact absurd ((decode_reservedBits_iff w).mp he) (by simp [hrsv])
  | reservedOp => exact he

/-- Settles O18: five of the words are the encoder's, and the others have a bit above bit 7 or an OP that R64 lists. -/
theorem sampleWordsDecode : Obligations.SampleWordsDecode :=
  ⟨decode_encode .add, decode_encode .pdiv, decode_encode .rdlog, decode_encode .divD, decode_encode .powT,
    (decode_reservedBits_iff _).mpr (by decide), decode_reservedOp (by decide) (by decide),
    decode_reservedOp (by decide) (by decide)⟩

end Sys2Proof

/-! ### The word placed where the machine takes its next command from (the model's choice, assumption log 6) -/

namespace Sys2Proof

theorem decode_of_decodeTableWord {nbits w : Nat} {i : Instr} (h : decodeTableWord nbits w = some i) :
    decode (BitVec.ofNat 32 (w % 2 ^ nbits)) = .ok i := by
  rw [decodeTableWord] at h
  cases hw : decode (BitVec.ofNat 32 (w % 2 ^ nbits)) with
  | ok j => rw [hw] at h; exact congrArg Except.ok (Option.some.inj h)
  | error e => rw [hw] at h; exact nomatch h

namespace Machine

variable {s : State}

theorem State.withFetchWord_of_ready (hr : s.ready = true) (nbits w : Nat) : s.withFetchWord nbits w =
    { s with port := .access (cmdWrite s.config (BitVec.ofNat 32 (w % 2 ^ nbits))) :: s.port } := by
  rw [State.withFetchWord, if_pos hr]

/-- With READY = 0 the placement builds the tables first. -/
theorem State.withFetchWord_of_not_ready (hr : s.ready = false) (nbits w : Nat) :
    s.withFetchWord nbits w = s.generate.withFetchWord nbits w := by
  rw [State.withFetchWord_of_ready s.generate_ready, State.withFetchWord, if_neg (by simp [hr])]
  rfl

/-- With READY = 1 the step from the placed word is the word's command on the state itself. -/
theorem step_withFetchWord {nbits w : Nat} {i : Instr} (hc : s.config.wf = true) (hr : s.ready = true)
    (hi : decodeTableWord nbits w = some i) : step (s.withFetchWord nbits w) = exec i { s with rdata := none } := by
  rw [State.withFetchWord_of_ready hr]
  exact stepRunsDecodedCommand _ _ i s.port hc rfl (decode_of_decodeTableWord hi)

/-- Settles O21: with READY = 0 the word is placed on the generated state, whose READY is 1. -/
theorem fetchWordRunsCommand : Obligations.FetchWordRunsCommand := by
  refine fun s nbits w i hc hi => ⟨fun hr => step_withFetchWord hc hr hi, fun hr => ?_⟩
  rw [State.withFetchWord_of_not_ready hr]
  exact step_withFetchWord (s := s.generate) hc s.generate_ready hi

end Machine

end Sys2Proof
